-- ==== Sys2Proof/Word.lean ====
section
/-! DEFINITION. The block's value types (`00_scope.md` R9, R10): bytes, addresses and register indices. -/

namespace Sys2Proof

/-- A byte, an integer 0 to 255 (R9). -/
abbrev Byte := BitVec 8

/-- An address, an integer 0 to 65535 (R9). -/
abbrev Addr := BitVec 16

/-- A register index, "always a 4-bit value" (R21). -/
abbrev RegIdx := BitVec 4

end Sys2Proof
end

