-- ==== Sys2Proof/Syntax.lean ====
section
/-! DEFINITION. The instructions: one constructor for each row of `spec/opcode_table.json`, in the table's order
(`30_encoding.md` R64 to R66). -/

namespace Sys2Proof

/-- An instruction with its operands. `n` is the register index of the low nibble (R71), `imm` the byte after the
opcode (R69), `addr` and `target` the big-endian address after the opcode (R70). A row of undefined opcodes whose
mask leaves bits free carries the whole opcode byte (log entry 24). -/
inductive Instr
  | ldi (n : RegIdx) (imm : Byte)
  | ld (n : RegIdx) (addr : Addr)
  | st (n : RegIdx) (addr : Addr)
  | mov (n : RegIdx)
  | sav (n : RegIdx)
  | add (n : RegIdx)
  | sub (n : RegIdx)
  | mul (n : RegIdx)
  | div (n : RegIdx)
  | and (n : RegIdx)
  | or (n : RegIdx)
  | inc
  | dec
  | shl
  | shr
  | neg
  | not
  | skz
  | skp
  | skn
  | call (target : Addr)
  | ret
  | jmp (target : Addr)
  | busr
  | busw
  | busclr
  | nop
  | halt
  /-- 0xF0 to 0xFF; `low` is the ignored low nibble (R60, R135). -/
  | reserved (low : RegIdx)
  /-- Opcodes 0xB6 and 0xB7 (R65, R136). -/
  | undefB6 (op : Byte)
  /-- Opcodes 0xB8 to 0xBF. -/
  | undefB8 (op : Byte)
  /-- Opcodes 0xC6 and 0xC7. -/
  | undefC6 (op : Byte)
  /-- Opcodes 0xC8 to 0xCF. -/
  | undefC8 (op : Byte)
  /-- Opcode 0xD3. -/
  | undefD3
  /-- Opcodes 0xD4 to 0xD7. -/
  | undefD4 (op : Byte)
  /-- Opcodes 0xD8 to 0xDF. -/
  | undefD8 (op : Byte)
  /-- Opcodes 0xE2 and 0xE3. -/
  | undefE2 (op : Byte)
  /-- Opcodes 0xE4 to 0xE7. -/
  | undefE4 (op : Byte)
  /-- Opcodes 0xE8 to 0xEF. -/
  | undefE8 (op : Byte)
  deriving DecidableEq, Repr

end Sys2Proof
end

