-- ==== Sys2Proof/WellFormed.lean ====
section
/-! DEFINITION. Which terms of `Instr` stand for an encoding. Register indices, immediates and addresses are
well formed by their types (R63, R69, R70); the opcode byte that an undefined row carries must lie in the row. -/

namespace Sys2Proof

/-- The opcode byte lies in the table row with this mask and match. -/
def inRow (mask pattern op : Byte) : Bool := op &&& mask == pattern

/-- The term stands for an encoding of its row (`30_encoding.md` R65; masks of `opcode_table.json`). -/
def wellFormed (i : Instr) : Bool :=
  match i with
  | .ldi _ _ | .ld _ _ | .st _ _ | .mov _ | .sav _ | .add _ | .sub _ | .mul _ | .div _ | .and _ | .or _ => true
  | .inc | .dec | .shl | .shr | .neg | .not | .skz | .skp | .skn | .call _ | .ret | .jmp _ => true
  | .busr | .busw | .busclr | .nop | .halt | .reserved _ | .undefD3 => true
  | .undefB6 op => inRow 0xFE 0xB6 op
  | .undefB8 op => inRow 0xF8 0xB8 op
  | .undefC6 op => inRow 0xFE 0xC6 op
  | .undefC8 op => inRow 0xF8 0xC8 op
  | .undefD4 op => inRow 0xFC 0xD4 op
  | .undefD8 op => inRow 0xF8 0xD8 op
  | .undefE2 op => inRow 0xFE 0xE2 op
  | .undefE4 op => inRow 0xFC 0xE4 op
  | .undefE8 op => inRow 0xF8 0xE8 op

end Sys2Proof
end

