-- ==== Sys2Proof/Decode.lean ====
section
/-! DEFINITION. The decoder, total on any bytes, and the encoder, both written from the opcode map
(`30_encoding.md` R60 to R71). -/

namespace Sys2Proof

/-! ### Bit fields and byte order -/

/-- `op[7:4]`, the family (R10, R60). -/
def highNibble (op : Byte) : BitVec 4 := op.extractLsb' 4 4

/-- `op[3:0]`, the register index or sub-opcode (R10, R60). -/
def lowNibble (op : Byte) : BitVec 4 := op.extractLsb' 0 4

/-- The opcode byte with this family and low nibble. -/
def opcodeByte (family low : BitVec 4) : Byte := family ++ low

/-- `hi : lo`, the 16-bit value whose most significant byte is `hi` (R10). -/
def joinBytes (hi lo : Byte) : Addr := hi ++ lo

/-- Bits 15 to 8. -/
def hiByte (a : Addr) : Byte := a.extractLsb' 8 8

/-- Bits 7 to 0. -/
def loByte (a : Addr) : Byte := a.extractLsb' 0 8

/-! ### Decoding -/

/-- The length of an instruction "is a function of its opcode byte alone" (R62). -/
def instrLength (op : Byte) : Nat :=
  match (highNibble op).toNat, (lowNibble op).toNat with
  | 0x0, _ => 2
  | 0x1, _ => 3
  | 0x2, _ => 3
  | 0xC, 0x3 => 3
  | 0xC, 0x5 => 3
  | _, _ => 1

/-- Family 0xB (R107, R136). -/
def decodeUnary (op : Byte) : Instr :=
  match (lowNibble op).toNat with
  | 0x0 => .inc
  | 0x1 => .dec
  | 0x2 => .shl
  | 0x3 => .shr
  | 0x4 => .neg
  | 0x5 => .not
  | 0x6 => .undefB6 op
  | 0x7 => .undefB6 op
  | _ => .undefB8 op

/-- Family 0xC (R64, R136); `b1` and `b2` are the two bytes after the opcode. -/
def decodeControl (op b1 b2 : Byte) : Instr :=
  match (lowNibble op).toNat with
  | 0x0 => .skz
  | 0x1 => .skp
  | 0x2 => .skn
  | 0x3 => .call (joinBytes b1 b2)
  | 0x4 => .ret
  | 0x5 => .jmp (joinBytes b1 b2)
  | 0x6 => .undefC6 op
  | 0x7 => .undefC6 op
  | _ => .undefC8 op

/-- Family 0xD (R64, R136). -/
def decodeBus (op : Byte) : Instr :=
  match (lowNibble op).toNat with
  | 0x0 => .busr
  | 0x1 => .busw
  | 0x2 => .busclr
  | 0x3 => .undefD3
  | 0x4 => .undefD4 op
  | 0x5 => .undefD4 op
  | 0x6 => .undefD4 op
  | 0x7 => .undefD4 op
  | _ => .undefD8 op

/-- Family 0xE (R64, R136). -/
def decodeSystem (op : Byte) : Instr :=
  match (lowNibble op).toNat with
  | 0x0 => .nop
  | 0x1 => .halt
  | 0x2 => .undefE2 op
  | 0x3 => .undefE2 op
  | 0x4 => .undefE4 op
  | 0x5 => .undefE4 op
  | 0x6 => .undefE4 op
  | 0x7 => .undefE4 op
  | _ => .undefE8 op

/-- The instruction with opcode `op`, followed in memory by `b1` and `b2`, of which it takes as many as its length
says. The high nibble alone selects the family (R85); every one of the 256 opcodes is exactly one row (R67). -/
def decodeOpcode (op b1 b2 : Byte) : Instr :=
  match (highNibble op).toNat with
  | 0x0 => .ldi (lowNibble op) b1
  | 0x1 => .ld (lowNibble op) (joinBytes b1 b2)
  | 0x2 => .st (lowNibble op) (joinBytes b1 b2)
  | 0x3 => .mov (lowNibble op)
  | 0x4 => .sav (lowNibble op)
  | 0x5 => .add (lowNibble op)
  | 0x6 => .sub (lowNibble op)
  | 0x7 => .mul (lowNibble op)
  | 0x8 => .div (lowNibble op)
  | 0x9 => .and (lowNibble op)
  | 0xA => .or (lowNibble op)
  | 0xB => decodeUnary op
  | 0xC => decodeControl op b1 b2
  | 0xD => decodeBus op
  | 0xE => decodeSystem op
  | _ => .reserved (lowNibble op)

/-- Why a list of bytes holds no whole instruction. No opcode byte is rejected: the undefined and the reserved ones
decode to instructions that raise (R65, R66). -/
inductive DecodeError
  /-- The list is empty. -/
  | noOpcode
  /-- The list ends before the instruction's last operand byte. -/
  | missingOperand
  deriving DecidableEq, Repr

/-- The first instruction of a list of bytes and the bytes after it. -/
def decode (bytes : List Byte) : Except DecodeError (Instr × List Byte) :=
  match bytes with
  | [] => .error .noOpcode
  | op :: rest =>
    if rest.length + 1 < instrLength op then .error .missingOperand
    else .ok (decodeOpcode op (rest.getD 0 0) (rest.getD 1 0), rest.drop (instrLength op - 1))

/-! ### Encoding -/

/-- The bytes of an instruction in address order, from the formats of R61 and the map of R64. -/
def encode (i : Instr) : List Byte :=
  match i with
  | .ldi n imm => [opcodeByte 0x0 n, imm]
  | .ld n addr => [opcodeByte 0x1 n, hiByte addr, loByte addr]
  | .st n addr => [opcodeByte 0x2 n, hiByte addr, loByte addr]
  | .mov n => [opcodeByte 0x3 n]
  | .sav n => [opcodeByte 0x4 n]
  | .add n => [opcodeByte 0x5 n]
  | .sub n => [opcodeByte 0x6 n]
  | .mul n => [opcodeByte 0x7 n]
  | .div n => [opcodeByte 0x8 n]
  | .and n => [opcodeByte 0x9 n]
  | .or n => [opcodeByte 0xA n]
  | .inc => [0xB0]
  | .dec => [0xB1]
  | .shl => [0xB2]
  | .shr => [0xB3]
  | .neg => [0xB4]
  | .not => [0xB5]
  | .skz => [0xC0]
  | .skp => [0xC1]
  | .skn => [0xC2]
  | .call target => [0xC3, hiByte target, loByte target]
  | .ret => [0xC4]
  | .jmp target => [0xC5, hiByte target, loByte target]
  | .busr => [0xD0]
  | .busw => [0xD1]
  | .busclr => [0xD2]
  | .nop => [0xE0]
  | .halt => [0xE1]
  | .reserved low => [opcodeByte 0xF low]
  | .undefB6 op => [op]
  | .undefB8 op => [op]
  | .undefC6 op => [op]
  | .undefC8 op => [op]
  | .undefD3 => [0xD3]
  | .undefD4 op => [op]
  | .undefD8 op => [op]
  | .undefE2 op => [op]
  | .undefE4 op => [op]
  | .undefE8 op => [op]

/-! ### The opcode table's numbering of an instruction's bits -/

/-- The three bytes, lowest address first, of the instruction whose first `nbits` bits are those of `w`, bit 0 the
least significant bit of the first byte; every bit above `nbits` is 0. Three bytes is the longest instruction. -/
def tableBytes (nbits w : Nat) : List Byte :=
  let v := w % 2 ^ nbits
  [BitVec.ofNat 8 v, BitVec.ofNat 8 (v / 256), BitVec.ofNat 8 (v / 65536)]

/-- The instruction the decoder reads from the table's word. -/
def decodeTableWord (nbits w : Nat) : Option Instr :=
  match decode (tableBytes nbits w) with
  | .ok (i, _) => some i
  | .error _ => none

end Sys2Proof
end

