-- ==== Sys2Proof/Config.lean ====
section
/-! DEFINITION. The block's implementation parameters (`00_scope.md` R8) and the one named parameter with a
choice of values (`93_implementation_defined.md` section 2). -/

namespace Sys2Proof

/-- `STACK_FULL_POLICY` (`92_eei_decisions.md` D23): what a CALL made with SP = 0xFE does. -/
inductive StackFullPolicy
  /-- R118 as written: the push goes through and SP wraps to 0x00. -/
  | wrap
  /-- The other reading of conflict C1: the CALL raises StackOverflow before any write. -/
  | fault
  deriving DecidableEq, Repr

namespace Config

/-- Load base of the image and reset value of PC (R8, R42, R162). -/
def baseOffset : Addr := 0x0800

/-- The largest image that Reset accepts, 65535 − 0x800 bytes (R8, R160). -/
def maxImageLength : Nat := 65535 - 0x800

/-- The number of bytes of M (R8, R37). -/
def memorySize : Nat := 65536

/-- DESIGN CHOICE (log entry 6): the policy at reset is the spec's default, `wrap` (D23). -/
def defaultStackFullPolicy : StackFullPolicy := .wrap

end Config

end Sys2Proof
end

