-- ==== Sys2Proof/Machine/State.lean ====
section
/-! DEFINITION. The state of the block (`10_state.md`), as plain data, with the reasons a step can stop and the
state after reset. -/

namespace Sys2Proof.Machine

/-- FLAG, the "derived classification of the accumulator" (R30). ERROR has no producer (R32). -/
inductive Flag
  | zero
  | positive
  | negative
  | error
  deriving DecidableEq, Repr

/-- STATUS, the run status (R33). SUSPENDED has no producer. -/
inductive Status
  | running
  | suspended
  | halted
  deriving DecidableEq, Repr

/-- The six execution errors that FAULT can record (R34, R140). -/
inductive ExecError
  /-- An undefined sub-opcode of families 0xB to 0xE (R141). -/
  | invalidOpcode
  /-- An opcode of the reserved family 0xF (R142). -/
  | reservedOpcode
  /-- CALL with a full stack (R144). -/
  | stackOverflow
  /-- RET with SP = 0 (R144). -/
  | stackUnderflow
  /-- The bus answered `fail` (R128). -/
  | busFailure
  /-- DIV by a register that holds 0 (R143). -/
  | divideByZero
  deriving DecidableEq, Repr

/-! ### The bus port (`45_bus_io.md`) -/

/-- The answer to `BusRead()` (R124). -/
inductive ReadAnswer
  | ok (b : Byte)
  | fail
  deriving DecidableEq, Repr

/-- The answer to `BusWrite(b)` or `BusReset()` (R124). -/
inductive Ack
  | ok
  | fail
  deriving DecidableEq, Repr

/-- One completed transaction of the bus port: its request and its answer (R124). -/
inductive Exchange
  | read (answer : ReadAnswer)
  | write (b : Byte) (answer : Ack)
  | reset (answer : Ack)
  deriving DecidableEq, Repr

/-- DESIGN CHOICE (log entries 3 and 5): the bus environment as plain data. The environment is a free input (R126),
so the answers it is going to give stand here, in order, one list for each transaction; an empty list means that it
does not answer. `history` holds the transactions made so far, the latest first. -/
structure Bus where
  readAnswers : List ReadAnswer
  writeAnswers : List Ack
  resetAnswers : List Ack
  history : List Exchange
  deriving DecidableEq, Repr

/-! ### Memory -/

/-- M (R37) as the bytes that differ from `Memory.unlisted`, each with its address (log entry 7). -/
abbrev Memory := List Host.Cell

/-- What an address with no entry reads as: every byte is "zero-initialised at reset" (R42, R54). -/
def Memory.unlisted : Byte := 0x00

/-- The canonical form: addresses strictly rising and inside M, and no entry equal to what an unlisted address reads
as. Equal memories are then equal lists. -/
abbrev Memory.wf (m : Memory) : Prop :=
  m.Pairwise (fun c d => c.1 < d.1) ∧ ∀ c ∈ m, c.1 < Config.memorySize ∧ c.2 ≠ Memory.unlisted

/-! ### The state -/

/-- The state tuple of R19, then the model's own three items: the bus environment (log entries 3, 5) and the
parameter `STACK_FULL_POLICY` (log entry 6). -/
structure State where
  /-- ACC (R20). -/
  acc : Byte
  /-- R[0..15] (R21). -/
  regs : Vector Byte 16
  /-- M (R37). -/
  mem : Memory
  /-- PC (R23). -/
  pc : Addr
  /-- SP (R27). -/
  sp : Byte
  /-- FLAG (R30). -/
  flag : Flag
  /-- STATUS (R33). -/
  status : Status
  /-- FAULT (R34); `none` is NONE. -/
  fault : Option ExecError
  /-- The bus environment, outside the block (R38, R126). -/
  bus : Bus
  /-- `STACK_FULL_POLICY` (`92_eei_decisions.md` D23); no step writes it. -/
  stackFullPolicy : StackFullPolicy
  deriving DecidableEq, Repr

/-- Why a step stops with an outcome `fault`: for no reason at all. The spec gives every execution error its effect,
the latch FAULT (R91, R145), so an error is a next state, and nothing else stops the machine (log entry 2). -/
inductive Fault
  deriving DecidableEq, Repr

/-- Why a step is refused. -/
inductive Refusal
  /-- An arm of `exec` whose instruction has no meaning yet; safe. No arm of this model raises it. -/
  | notModelled (mnemonic : String)
  deriving DecidableEq, Repr

/-- The state after `Reset(image)` with the empty image, which Reset accepts (R42, R160, R161; log entry 8). -/
def State.reset : State where
  acc := 0x00
  regs := Vector.replicate 16 0x00
  mem := []
  pc := Config.baseOffset
  sp := 0x00
  flag := .zero
  status := .running
  fault := none
  bus := { readAnswers := [], writeAnswers := [], resetAnswers := [], history := [] }
  stackFullPolicy := Config.defaultStackFullPolicy

end Sys2Proof.Machine
end

