-- ==== Sys2Proof/Machine/Flags.lean ====
section
/-! DEFINITION. The one flag computation of the block (`40_engine.md` R87). -/

namespace Sys2Proof.Machine

/-- The classification of a byte: ZERO if it is 0, NEGATIVE if bit 7 is set, POSITIVE otherwise (R87). -/
def classify (v : Byte) : Flag :=
  if v = 0 then .zero
  else if v.getLsbD 7 then .negative
  else .positive

end Sys2Proof.Machine
end

