-- ==== Sys2Proof/Machine/Ops.lean ====
section
/-! DEFINITION. The named operations over registers, memory, the call stack and the bus port, the two ways an
instruction ends (completing and raising), and waiting for the bus. Each meaning is written over these. -/

namespace Sys2Proof.Machine

/-! ### Registers (R20 to R28) -/

/-- `R[n]`. -/
def readReg (s : State) (n : RegIdx) : Byte := s.regs[n.toNat]'n.isLt

/-- `R[n] <- v`. -/
def writeReg (n : RegIdx) (v : Byte) (s : State) : State := { s with regs := s.regs.set n.toNat v n.isLt }

/-- `ACC <- v`. -/
def setAcc (v : Byte) (s : State) : State := { s with acc := v }

/-- `PC <- target`. -/
def setPc (target : Addr) (s : State) : State := { s with pc := target }

/-- `PC <- PC +16 k` (R25). -/
def advance (k : Addr) (s : State) : State := { s with pc := s.pc + k }

/-- `SP <- v`. -/
def setSp (v : Byte) (s : State) : State := { s with sp := v }

/-- `STATUS <- v`. -/
def setStatus (v : Status) (s : State) : State := { s with status := v }

/-- The bus environment after a transaction. -/
def setBus (b : Bus) (s : State) : State := { s with bus := b }

/-! ### Memory (`20_memory.md`) -/

/-- The byte listed for an address, if one is. -/
def Memory.find (a : Nat) : Memory → Option Byte
  | [] => none
  | (k, v) :: rest => if k = a then some v else Memory.find a rest

/-- The memory without an entry for the address. -/
def Memory.erase (a : Nat) : Memory → Memory
  | [] => []
  | (k, v) :: rest => if k = a then Memory.erase a rest else (k, v) :: Memory.erase a rest

/-- The memory with a new entry, put before the first entry of a higher address. -/
def Memory.place (a : Nat) (b : Byte) : Memory → Memory
  | [] => [(a, b)]
  | (k, v) :: rest => if a < k then (a, b) :: (k, v) :: rest else (k, v) :: Memory.place a b rest

/-- `MemRead(a, 1)` (R12, R53). -/
def Memory.read (m : Memory) (a : Addr) : Byte := (Memory.find a.toNat m).getD Memory.unlisted

/-- `MemWrite(a, 1, b)` (R12); it keeps the canonical form. -/
def Memory.write (m : Memory) (a : Addr) (b : Byte) : Memory :=
  if b = Memory.unlisted then Memory.erase a.toNat m else Memory.place a.toNat b (Memory.erase a.toNat m)

/-- The bytes written one after another from an address on, which wraps after 0xFFFF. -/
def Memory.writeBytes (m : Memory) (a : Addr) : List Byte → Memory
  | [] => m
  | b :: rest => Memory.writeBytes (m.write a b) (a + 1) rest

/-- `Read16(a)`: big-endian, the second byte at `a +16 1` (R12, R49, R52). -/
def Memory.read16 (m : Memory) (a : Addr) : Addr := joinBytes (m.read a) (m.read (a + 1))

/-- The byte of M at an address. -/
def readMem (s : State) (a : Addr) : Byte := s.mem.read a

/-- A store of one byte. -/
def writeMem (a : Addr) (b : Byte) (s : State) : State := { s with mem := s.mem.write a b }

/-! ### How an instruction ends -/

/-- An instruction that completes: the engine recomputes FLAG from ACC as the instruction left it (R88). -/
def complete (s : State) : Host.Outcome State Fault Refusal := .next { s with flag := classify s.acc }

/-- `raise e`, the one way to take an execution error, from the state before the fetch: FAULT records the error,
PC is one past the opcode and everything else stays (R14, R91, R145). There is no trap entry and no return from
one (R146, R147). -/
def raise (e : ExecError) (s : State) : Host.Outcome State Fault Refusal :=
  .next { advance 1 s with fault := some e }

/-- The bus has not answered: the instruction does not complete and no state changes (R125; log entry 4). -/
def waitForBus (s : State) : Host.Outcome State Fault Refusal := .next s

/-! ### The call stack (R27, R28, R118, R119) -/

/-- The address of a stack byte, `zext16` of an offset: always in 0x0000 to 0x00FF (R28). -/
def stackAddr (offset : Byte) : Addr := offset.setWidth 16

/-- What CALL at `s.pc` pushes: the counter after the opcode fetch, A+1 (R118, conflict C7). -/
def pushedValue (s : State) : Addr := s.pc + 1

/-- The two stack writes of CALL, high byte first, and SP up by 2 (R118). -/
def pushPc (s : State) : State :=
  setSp (s.sp + 2)
    (writeMem (stackAddr (s.sp + 1)) (loByte (pushedValue s)) (writeMem (stackAddr s.sp) (hiByte (pushedValue s)) s))

/-- The 16-bit value on top of the call stack (R119). -/
def poppedValue (s : State) : Addr :=
  joinBytes (readMem s (stackAddr (s.sp - 2))) (readMem s (stackAddr (s.sp - 1)))

/-- CALL finds the stack full: SP = 0xFF, or SP = 0xFE where the policy says so (R118, R144, D23). -/
def stackFull (s : State) : Bool :=
  s.sp == 0xFF || (s.sp == 0xFE && s.stackFullPolicy == .fault)

/-- RET finds the stack empty (R119). -/
def stackEmpty (s : State) : Bool := s.sp == 0

/-! ### The bus port (R124). `none` is "no answer". -/

/-- `BusRead()`. -/
def busRead (b : Bus) : Option (ReadAnswer × Bus) :=
  match b.readAnswers with
  | [] => none
  | r :: rest => some (r, { b with readAnswers := rest, history := .read r :: b.history })

/-- `BusWrite(v)`. -/
def busWrite (v : Byte) (b : Bus) : Option (Ack × Bus) :=
  match b.writeAnswers with
  | [] => none
  | r :: rest => some (r, { b with writeAnswers := rest, history := .write v r :: b.history })

/-- `BusReset()`. -/
def busReset (b : Bus) : Option (Ack × Bus) :=
  match b.resetAnswers with
  | [] => none
  | r :: rest => some (r, { b with resetAnswers := rest, history := .reset r :: b.history })

end Sys2Proof.Machine
end

