-- ==== Sys2Proof/Machine/Operands.lean ====
section
/-! DEFINITION. The operand forms (`30_encoding.md` R69 to R71) and what the families share: an instruction that
writes ACC, one that writes a register, a conditional skip, and the target operand of CALL, which is read after the
push. The register operand is `readReg`; an immediate is used as it stands, with no extension (R69); an address is
absolute (R70). -/

namespace Sys2Proof.Machine

/-- A one-byte instruction whose result goes to ACC (R98, R107). -/
def completeAcc (v : Byte) (s : State) : Host.Outcome State Fault Refusal := complete (setAcc v (advance 1 s))

/-- An instruction of `len` bytes whose result goes to R[n]. -/
def completeReg (n : RegIdx) (v : Byte) (len : Addr) (s : State) : Host.Outcome State Fault Refusal :=
  complete (writeReg n v (advance len s))

/-- A conditional skip: one byte further than the next instruction byte when FLAG has the tested value (R114; the
distance of one byte is log entry 20). -/
def skipIf (f : Flag) (s : State) : Host.Outcome State Fault Refusal :=
  complete (advance (if s.flag = f then 2 else 1) s)

/-- The byte that address `a` holds after CALL's push, when it held `b` at the fetch (R58; log entries 10 and 16). -/
def byteAfterPush (s : State) (a : Addr) (b : Byte) : Byte :=
  if a = stackAddr (s.sp + 1) then loByte (pushedValue s)
  else if a = stackAddr s.sp then hiByte (pushedValue s)
  else b

/-- CALL's target: its operand bytes, at A+1 and A+2, as they are after the push (R58, R118). -/
def targetAfterPush (s : State) (target : Addr) : Addr :=
  joinBytes (byteAfterPush s (s.pc + 1) (hiByte target)) (byteAfterPush s (s.pc + 2) (loByte target))

end Sys2Proof.Machine
end

