-- ==== Sys2Proof/Machine/Alu.lean ====
section
/-! DEFINITION. Families 0x3 to 0xA: accumulator transfers and binary ALU operations (`42_transfer_alu.md`). -/

namespace Sys2Proof.Machine

/-- MOV (R99). -/
def execMov (n : RegIdx) (s : State) : Host.Outcome State Fault Refusal :=
  completeAcc (readReg s n) s

/-- SAV (R100). -/
def execSav (n : RegIdx) (s : State) : Host.Outcome State Fault Refusal :=
  completeReg n s.acc 1 s

/-- ADD, modulo 256 (R101). -/
def execAdd (n : RegIdx) (s : State) : Host.Outcome State Fault Refusal :=
  completeAcc (s.acc + readReg s n) s

/-- SUB, modulo 256 (R102). -/
def execSub (n : RegIdx) (s : State) : Host.Outcome State Fault Refusal :=
  completeAcc (s.acc - readReg s n) s

/-- MUL, the low 8 bits of the product (R103). -/
def execMul (n : RegIdx) (s : State) : Host.Outcome State Fault Refusal :=
  completeAcc (s.acc * readReg s n) s

/-- DIV, the unsigned quotient; a zero divisor raises before anything is written (R104, R143). -/
def execDiv (n : RegIdx) (s : State) : Host.Outcome State Fault Refusal :=
  if readReg s n = 0 then raise .divideByZero s
  else completeAcc (s.acc.udiv (readReg s n)) s

/-- AND (R105). -/
def execAnd (n : RegIdx) (s : State) : Host.Outcome State Fault Refusal :=
  completeAcc (s.acc &&& readReg s n) s

/-- OR (R106). -/
def execOr (n : RegIdx) (s : State) : Host.Outcome State Fault Refusal :=
  completeAcc (s.acc ||| readReg s n) s

end Sys2Proof.Machine
end

