-- ==== Sys2Proof/Machine/BusIo.lean ====
section
/-! DEFINITION. Family 0xD: bus input and output and the family's undefined sub-opcodes (`45_bus_io.md`,
`46_system.md` R136). -/

namespace Sys2Proof.Machine

/-- BUSR (R129); `fail` raises BusFailure and leaves ACC (R128). -/
def execBusr (s : State) : Host.Outcome State Fault Refusal :=
  match busRead s.bus with
  | none => waitForBus s
  | some (.fail, b) => raise .busFailure (setBus b s)
  | some (.ok v, b) => completeAcc v (setBus b s)

/-- BUSW (R130). -/
def execBusw (s : State) : Host.Outcome State Fault Refusal :=
  match busWrite s.acc s.bus with
  | none => waitForBus s
  | some (.fail, b) => raise .busFailure (setBus b s)
  | some (.ok, b) => complete (advance 1 (setBus b s))

/-- BUSCLR (R131); what the channels discard is the environment's (log entry 26). -/
def execBusclr (s : State) : Host.Outcome State Fault Refusal :=
  match busReset s.bus with
  | none => waitForBus s
  | some (.fail, b) => raise .busFailure (setBus b s)
  | some (.ok, b) => complete (advance 1 (setBus b s))

/-- Opcode 0xD3 (R136). -/
def execUndefD3 (s : State) : Host.Outcome State Fault Refusal := raise .invalidOpcode s

/-- Opcodes 0xD4 to 0xD7 (R136). -/
def execUndefD4 (_op : Byte) (s : State) : Host.Outcome State Fault Refusal := raise .invalidOpcode s

/-- Opcodes 0xD8 to 0xDF (R136). -/
def execUndefD8 (_op : Byte) (s : State) : Host.Outcome State Fault Refusal := raise .invalidOpcode s

end Sys2Proof.Machine
end

