-- ==== Sys2Proof/Machine/Control.lean ====
section
/-! DEFINITION. Family 0xC: conditional skips, CALL, RET, JMP and the family's undefined sub-opcodes
(`44_control.md`, `46_system.md` R136). -/

namespace Sys2Proof.Machine

/-- SKZ (R115). -/
def execSkz (s : State) : Host.Outcome State Fault Refusal := skipIf .zero s

/-- SKP (R116). -/
def execSkp (s : State) : Host.Outcome State Fault Refusal := skipIf .positive s

/-- SKN (R117). -/
def execSkn (s : State) : Host.Outcome State Fault Refusal := skipIf .negative s

/-- CALL: the full-stack test, the push, then the target read after the push (R118, R58). -/
def execCall (target : Addr) (s : State) : Host.Outcome State Fault Refusal :=
  if stackFull s then raise .stackOverflow s
  else complete (setPc (targetAfterPush s target) (pushPc s))

/-- RET: the empty-stack test, the pop, and 2 added to skip CALL's operand bytes (R119). -/
def execRet (s : State) : Host.Outcome State Fault Refusal :=
  if stackEmpty s then raise .stackUnderflow s
  else complete (setPc (poppedValue s + 2) (setSp (s.sp - 2) s))

/-- JMP, with no stack check (R120, D8). -/
def execJmp (target : Addr) (s : State) : Host.Outcome State Fault Refusal := complete (setPc target s)

/-- Opcodes 0xC6 and 0xC7 (R136). -/
def execUndefC6 (_op : Byte) (s : State) : Host.Outcome State Fault Refusal := raise .invalidOpcode s

/-- Opcodes 0xC8 to 0xCF (R136). -/
def execUndefC8 (_op : Byte) (s : State) : Host.Outcome State Fault Refusal := raise .invalidOpcode s

end Sys2Proof.Machine
end

