-- ==== Sys2Proof/Machine/LoadStore.lean ====
section
/-! DEFINITION. Families 0x0, 0x1, 0x2: register loads and stores (`41_load_store.md`). -/

namespace Sys2Proof.Machine

/-- LDI (R95). -/
def execLdi (n : RegIdx) (imm : Byte) (s : State) : Host.Outcome State Fault Refusal :=
  completeReg n imm 2 s

/-- LD (R96). -/
def execLd (n : RegIdx) (addr : Addr) (s : State) : Host.Outcome State Fault Refusal :=
  completeReg n (readMem s addr) 3 s

/-- ST (R97). -/
def execSt (n : RegIdx) (addr : Addr) (s : State) : Host.Outcome State Fault Refusal :=
  complete (writeMem addr (readReg s n) (advance 3 s))

end Sys2Proof.Machine
end

