-- ==== Sys2Proof/Machine/System.lean ====
section
/-! DEFINITION. Families 0xE and 0xF: NOP, HALT, the reserved family and the undefined sub-opcodes of family 0xE
(`46_system.md`). -/

namespace Sys2Proof.Machine

/-- NOP (R133). -/
def execNop (s : State) : Host.Outcome State Fault Refusal := complete (advance 1 s)

/-- HALT (R134). -/
def execHalt (s : State) : Host.Outcome State Fault Refusal := complete (setStatus .halted (advance 1 s))

/-- The reserved family, which "always fails ReservedOpcode" (R135). -/
def execReserved (_low : RegIdx) (s : State) : Host.Outcome State Fault Refusal := raise .reservedOpcode s

/-- Opcodes 0xE2 and 0xE3 (R136). -/
def execUndefE2 (_op : Byte) (s : State) : Host.Outcome State Fault Refusal := raise .invalidOpcode s

/-- Opcodes 0xE4 to 0xE7 (R136). -/
def execUndefE4 (_op : Byte) (s : State) : Host.Outcome State Fault Refusal := raise .invalidOpcode s

/-- Opcodes 0xE8 to 0xEF (R136). -/
def execUndefE8 (_op : Byte) (s : State) : Host.Outcome State Fault Refusal := raise .invalidOpcode s

end Sys2Proof.Machine
end

