-- ==== Sys2Proof/Machine/Unary.lean ====
section
/-! DEFINITION. Family 0xB: unary accumulator operations and the family's undefined sub-opcodes (`43_unary.md`,
`46_system.md` R136). -/

namespace Sys2Proof.Machine

/-- INC (R108). -/
def execInc (s : State) : Host.Outcome State Fault Refusal := completeAcc (s.acc + 1) s

/-- DEC (R109). -/
def execDec (s : State) : Host.Outcome State Fault Refusal := completeAcc (s.acc - 1) s

/-- SHL, logical (R110). -/
def execShl (s : State) : Host.Outcome State Fault Refusal := completeAcc (s.acc <<< 1) s

/-- SHR, logical (R111). -/
def execShr (s : State) : Host.Outcome State Fault Refusal := completeAcc (s.acc >>> 1) s

/-- NEG, two's complement (R112). -/
def execNeg (s : State) : Host.Outcome State Fault Refusal := completeAcc (0 - s.acc) s

/-- NOT, bitwise (R113). -/
def execNot (s : State) : Host.Outcome State Fault Refusal := completeAcc (~~~ s.acc) s

/-- Opcodes 0xB6 and 0xB7 (R136). -/
def execUndefB6 (_op : Byte) (s : State) : Host.Outcome State Fault Refusal := raise .invalidOpcode s

/-- Opcodes 0xB8 to 0xBF (R136). -/
def execUndefB8 (_op : Byte) (s : State) : Host.Outcome State Fault Refusal := raise .invalidOpcode s

end Sys2Proof.Machine
end

