-- ==== Sys2Proof/Machine/Dispatch.lean ====
section
/-! DEFINITION. The dispatch (`40_engine.md` R85): one arm per instruction, from the state before the fetch of its
opcode to the state after the engine's flag recompute or after the raise. -/

namespace Sys2Proof.Machine

def exec (i : Instr) (s : State) : Host.Outcome State Fault Refusal :=
  match i with
  | .ldi n imm => Sys2Proof.Machine.execLdi n imm s
  | .ld n addr => Sys2Proof.Machine.execLd n addr s
  | .st n addr => Sys2Proof.Machine.execSt n addr s
  | .mov n => Sys2Proof.Machine.execMov n s
  | .sav n => Sys2Proof.Machine.execSav n s
  | .add n => Sys2Proof.Machine.execAdd n s
  | .sub n => Sys2Proof.Machine.execSub n s
  | .mul n => Sys2Proof.Machine.execMul n s
  | .div n => Sys2Proof.Machine.execDiv n s
  | .and n => Sys2Proof.Machine.execAnd n s
  | .or n => Sys2Proof.Machine.execOr n s
  | .inc => Sys2Proof.Machine.execInc s
  | .dec => Sys2Proof.Machine.execDec s
  | .shl => Sys2Proof.Machine.execShl s
  | .shr => Sys2Proof.Machine.execShr s
  | .neg => Sys2Proof.Machine.execNeg s
  | .not => Sys2Proof.Machine.execNot s
  | .skz => Sys2Proof.Machine.execSkz s
  | .skp => Sys2Proof.Machine.execSkp s
  | .skn => Sys2Proof.Machine.execSkn s
  | .call target => Sys2Proof.Machine.execCall target s
  | .ret => Sys2Proof.Machine.execRet s
  | .jmp target => Sys2Proof.Machine.execJmp target s
  | .busr => Sys2Proof.Machine.execBusr s
  | .busw => Sys2Proof.Machine.execBusw s
  | .busclr => Sys2Proof.Machine.execBusclr s
  | .nop => Sys2Proof.Machine.execNop s
  | .halt => Sys2Proof.Machine.execHalt s
  | .reserved low => Sys2Proof.Machine.execReserved low s
  | .undefB6 op => Sys2Proof.Machine.execUndefB6 op s
  | .undefB8 op => Sys2Proof.Machine.execUndefB8 op s
  | .undefC6 op => Sys2Proof.Machine.execUndefC6 op s
  | .undefC8 op => Sys2Proof.Machine.execUndefC8 op s
  | .undefD3 => Sys2Proof.Machine.execUndefD3 s
  | .undefD4 op => Sys2Proof.Machine.execUndefD4 op s
  | .undefD8 op => Sys2Proof.Machine.execUndefD8 op s
  | .undefE2 op => Sys2Proof.Machine.execUndefE2 op s
  | .undefE4 op => Sys2Proof.Machine.execUndefE4 op s
  | .undefE8 op => Sys2Proof.Machine.execUndefE8 op s

end Sys2Proof.Machine
end

