-- ==== Sys2Proof/Machine/Fetch.lean ====
section
/-! DEFINITION. Fetching (`40_engine.md` R82, R83): when the engine takes a step, and the instruction at PC. -/

namespace Sys2Proof.Machine

/-- The engine takes a step "only when STATUS = RUNNING and FAULT = NONE" (R82). -/
def engineRuns (s : State) : Bool := s.status == .running && s.fault == none

/-- The instruction whose opcode is at PC. A read of M has no side effect (R53) and every address holds a byte, so
the fetch cannot fail (R83); the bytes past a shorter instruction are not looked at. -/
def fetchInstr (s : State) : Instr :=
  decodeOpcode (readMem s s.pc) (readMem s (s.pc + 1)) (readMem s (s.pc + 2))

/-- The state with these bytes placed from PC on. -/
def placeAtPc (bytes : List Byte) (s : State) : State := { s with mem := s.mem.writeBytes s.pc bytes }

end Sys2Proof.Machine
end

