-- ==== Sys2Proof/Machine/Step.lean ====
section
/-! DEFINITION. One step of the engine (`40_engine.md` R81), and the placing of one instruction where the next step
fetches. -/

namespace Sys2Proof.Machine

/-- One step: the instruction at PC. An engine that does not run takes no step and changes nothing (R82, R92, R93;
log entry 1). -/
def step (s : State) : Host.Outcome State Fault Refusal :=
  if engineRuns s then exec (fetchInstr s) s else .next s

/-- `s` with the table's word `w` of `nbits` bits in memory at PC (log entry 8). -/
def State.withFetchWord (s : State) (nbits w : Nat) : State := placeAtPc (tableBytes nbits w) s

end Sys2Proof.Machine
end

