-- ==== Sys2Proof/Machine/Run.lean ====
section
/-! DEFINITION. Several steps of the engine: the host's `Run` (`10_state.md` R40), cut off after a number of steps. -/

namespace Sys2Proof.Machine

/-- `k` steps, stopping at the first that gives no next state. It is `Host.Core.run` of this machine, written over
`State` itself (Laws/Step.lean: `runFor_eq_run`). -/
def runFor : Nat → State → Host.Outcome State Fault Refusal
  | 0, s => .next s
  | k + 1, s =>
    match step s with
    | .next t => runFor k t
    | .fault r => .fault r
    | .refused r => .refused r

end Sys2Proof.Machine
end

