-- ==== Sys2Proof/Machine/BusEnv.lean ====
section
/-! DEFINITION. The parameter `busEnv` as the spec words it: "any function from the history of bus transactions to
responses or to no response" (`93_implementation_defined.md` section 2; `45_bus_io.md` R126), and a run of the engine
against one. State itself holds answers as lists (log entry 3); this file is what those lists are measured against. -/

namespace Sys2Proof.Machine

/-- A bus environment: what it answers to each transaction after a history, `none` for no answer. -/
structure BusEnvironment where
  onRead : List Exchange → Option ReadAnswer
  onWrite : List Exchange → Byte → Option Ack
  onReset : List Exchange → Option Ack

/-- The state with these answers still to come. -/
def withAnswers (reads : List ReadAnswer) (writes resets : List Ack) (s : State) : State :=
  setBus { s.bus with readAnswers := reads, writeAnswers := writes, resetAnswers := resets } s

/-- The state with exactly the answer that the environment gives to the next transaction. -/
def offer (env : BusEnvironment) (s : State) : State :=
  withAnswers (env.onRead s.bus.history).toList (env.onWrite s.bus.history s.acc).toList
    (env.onReset s.bus.history).toList s

/-- `k` steps against an environment that is asked anew before every step. -/
def runIn (env : BusEnvironment) : Nat → State → Host.Outcome State Fault Refusal
  | 0, s => .next s
  | k + 1, s =>
    match step (offer env s) with
    | .next t => runIn env k t
    | .fault r => .fault r
    | .refused r => .refused r

end Sys2Proof.Machine
end

