-- ==== Sys2Proof/Machine/HostPort.lean ====
section
/-! DEFINITION. The host port (`10_state.md` R35, R40, R41; `70_reset_and_hazards.md` R159 to R161): Reset, Observe,
the numeric codes, and the address of a faulting instruction. Run is in Run.lean. -/

namespace Sys2Proof.Machine

/-- What `Reset(image)` reports (R40). -/
inductive ResetResult
  /-- The block is loaded and in this state. -/
  | loaded (s : State)
  /-- The image does not fit; nothing changes (R160). No FAULT is set (R149). -/
  | oversizeImage
  deriving DecidableEq, Repr

/-- `Reset(image)` (R159 to R161): the image check, then every element of the block to its reset value and the image
from 0x0800 on. The bus environment and the policy are no state of the block and stay (log entry 9). -/
def hostReset (image : List Byte) (s : State) : ResetResult :=
  if image.length > Config.maxImageLength then .oversizeImage
  else .loaded { State.reset with
    mem := Memory.writeBytes [] Config.baseOffset image
    bus := s.bus
    stackFullPolicy := s.stackFullPolicy }

/-- The engine has stopped (R40): halted or faulted, or suspended, in which it takes no step either (R93). -/
def stopped (s : State) : Bool := !engineRuns s

/-- FLAG as a number (R35). -/
def flagCode (f : Flag) : BitVec 2 :=
  match f with
  | .zero => 0
  | .positive => 1
  | .negative => 2
  | .error => 3

/-- STATUS as a number (R35). -/
def statusCode (v : Status) : BitVec 2 :=
  match v with
  | .running => 0
  | .suspended => 1
  | .halted => 2

/-- FAULT as a number (R35, R140). -/
def faultCode (e : Option ExecError) : BitVec 4 :=
  match e with
  | none => 0
  | some .invalidOpcode => 1
  | some .reservedOpcode => 2
  | some .stackOverflow => 3
  | some .stackUnderflow => 4
  | some .busFailure => 5
  | some .divideByZero => 6

/-- The state tuple of R19 as the host reads it. -/
structure Observation where
  acc : Byte
  regs : Vector Byte 16
  mem : Memory
  pc : Addr
  sp : Byte
  flag : BitVec 2
  status : BitVec 2
  fault : BitVec 4
  deriving DecidableEq, Repr

/-- `Observe` (R40), "meaningful once the engine has stopped" and answered only then (log entry 25). -/
def observe (s : State) : Option Observation :=
  if stopped s then
    some { acc := s.acc, regs := s.regs, mem := s.mem, pc := s.pc, sp := s.sp, flag := flagCode s.flag,
           status := statusCode s.status, fault := faultCode s.fault }
  else none

/-- The address of the instruction that raised, "A = PC −16 1" (R146). -/
def faultingAddress (s : State) : Option Addr := s.fault.map (fun _ => s.pc - 1)

end Sys2Proof.Machine
end

