-- ==== Sys2Proof/Safety.lean ====
section
/-! DEFINITION. The terms in which claims about runs are made: what a running engine is, how a run ends, the
invariant of every run from reset, and what one instruction leaves unchanged. -/

namespace Sys2Proof.Machine

/-! ### Runs -/

/-- The engine takes its next step (R82). -/
def Running (s : State) : Prop := s.status = .running ∧ s.fault = none

/-- The only successful end of a run (R94 (a)). -/
def HaltedEnd (s : State) : Prop := s.status = .halted ∧ s.fault = none

/-- The end of a run by an execution error (R94 (b), R158). -/
def FaultedEnd (s : State) : Prop := s.status = .running ∧ s.fault ≠ none

/-- No execution error has stopped the run. -/
def Safe (s : State) : Prop := s.fault = none

/-- A run of `k` steps is safe: none of its states records an error. -/
def SafeRun (k : Nat) (s : State) : Prop := ∀ j ≤ k, ∀ t : State, runFor j s = .next t → Safe t

/-- What holds at every instruction boundary of a run from reset: memory is in canonical form; FLAG is the
classification of ACC (R31); SP is even (R29); STATUS is not SUSPENDED (R93); a recorded error leaves STATUS RUNNING
(R91); and under the policy `wrap` no StackOverflow is recorded (R144). -/
structure Inv (s : State) : Prop where
  memory_wf : s.mem.wf
  flag_agrees : s.flag = classify s.acc
  sp_even : s.sp.toNat % 2 = 0
  not_suspended : s.status ≠ .suspended
  fault_running : s.fault ≠ none → s.status = .running
  no_overflow : s.stackFullPolicy = .wrap → s.fault ≠ some .stackOverflow

/-! ### Bytes in memory -/

/-- These bytes stand in memory from `a` on, one address after another modulo 65536. -/
def HoldsAt (m : Memory) (a : Addr) : List Byte → Prop
  | [] => True
  | b :: rest => m.read a = b ∧ HoldsAt m (a + 1) rest

/-- The instruction `i`, encoded by `bytes`, takes the state `s` before its fetch to `t`: `exec` answers `t`, and so
does `step` when the engine runs and the bytes stand at PC. -/
def StepsTo (i : Instr) (bytes : List Byte) (s t : State) : Prop :=
  exec i s = .next t ∧ (Running s → HoldsAt s.mem s.pc bytes → step s = .next t)

/-- The opcode byte that the next step fetches. -/
def opcodeAt (s : State) : Byte := readMem s s.pc

/-- The 47 undefined sub-opcodes of families 0xB to 0xE (R65). -/
def IsUndefinedOpcode (op : Byte) : Prop :=
  (0xB6 ≤ op.toNat ∧ op.toNat ≤ 0xBF) ∨ (0xC6 ≤ op.toNat ∧ op.toNat ≤ 0xCF) ∨
    (0xD3 ≤ op.toNat ∧ op.toNat ≤ 0xDF) ∨ (0xE2 ≤ op.toNat ∧ op.toNat ≤ 0xEF)

/-- The next instruction is a bus instruction, and the environment does not answer it (R125). -/
def WaitsForBus (s : State) : Prop :=
  (opcodeAt s = 0xD0 ∧ s.bus.readAnswers = []) ∨ (opcodeAt s = 0xD1 ∧ s.bus.writeAnswers = []) ∨
    (opcodeAt s = 0xD2 ∧ s.bus.resetAnswers = [])

/-- The next instruction is a bus instruction, and the environment answers it with `fail` (R128). -/
def FailsOnBus (s : State) : Prop :=
  (opcodeAt s = 0xD0 ∧ s.bus.readAnswers.head? = some .fail) ∨
    (opcodeAt s = 0xD1 ∧ s.bus.writeAnswers.head? = some .fail) ∨
    (opcodeAt s = 0xD2 ∧ s.bus.resetAnswers.head? = some .fail)

/-! ### Frames -/

/-- Every general register reads as before. -/
def SameRegs (s t : State) : Prop := ∀ n, readReg t n = readReg s n

/-- Every general register but one reads as before. -/
def SameRegsBut (n : RegIdx) (s t : State) : Prop := ∀ m, m ≠ n → readReg t m = readReg s m

/-- Every byte of M reads as before. -/
def SameMem (s t : State) : Prop := ∀ a, readMem t a = readMem s a

/-- STATUS, FAULT, the bus environment and the policy are as before. -/
def SameControl (s t : State) : Prop :=
  t.status = s.status ∧ t.fault = s.fault ∧ t.bus = s.bus ∧ t.stackFullPolicy = s.stackFullPolicy

/-- What a completed instruction of `len` bytes that does not redirect PC, transact or halt does beside its own
effect: PC is past it and FLAG is recomputed from ACC as it is now (R24, R88). -/
def CompletedPast (len : Addr) (s t : State) : Prop :=
  t.pc = s.pc + len ∧ t.flag = classify t.acc ∧ SameControl s t

/-- The frame of an instruction that writes ACC alone. -/
def OnlyAcc (s t : State) : Prop := SameRegs s t ∧ SameMem s t ∧ t.sp = s.sp

/-- The frame of an instruction that writes R[n] alone. -/
def OnlyReg (n : RegIdx) (s t : State) : Prop := t.acc = s.acc ∧ SameRegsBut n s t ∧ SameMem s t ∧ t.sp = s.sp

/-- ACC, the registers, memory and SP are as before. -/
def SameData (s t : State) : Prop := t.acc = s.acc ∧ SameRegs s t ∧ SameMem s t ∧ t.sp = s.sp

/-- The instruction completes, writing the byte of value `v` to ACC and nothing else. -/
def WritesAcc (i : Instr) (bytes : List Byte) (s : State) (v : Nat) : Prop :=
  ∃ t, StepsTo i bytes s t ∧ t.acc.toNat = v ∧ CompletedPast 1 s t ∧ OnlyAcc s t

/-- The precise state after the error `e`, apart from the bus environment (R145): PC is one past the opcode, FAULT
records the error, everything else of the block is as before. -/
def RaisedPrecisely (e : ExecError) (s t : State) : Prop :=
  t.fault = some e ∧ t.pc = s.pc + 1 ∧ t.status = s.status ∧ t.flag = s.flag ∧ SameData s t ∧
    t.stackFullPolicy = s.stackFullPolicy

/-- The instruction raises `e`, leaving the precise state and making no bus transaction. -/
def Raises (e : ExecError) (i : Instr) (bytes : List Byte) (s : State) : Prop :=
  ∃ t, StepsTo i bytes s t ∧ RaisedPrecisely e s t ∧ t.bus = s.bus

end Sys2Proof.Machine
end

