-- ==== Sys2Proof/Certificates/Slice0/Obligations.lean ====
section
/-! DEFINITION. The statements about the model. `StepsTo i bytes s t` (Safety.lean) says that `exec i s` answers `t`
and that `step s` does so when the engine runs and `bytes` stand at PC; the bytes are written out from the spec's
encodings. PC arithmetic and the addresses of the bytes are modulo 65536 (`00_scope.md` R11); that they wrap at 0xFFFF
is the spec's decision D6, log entry 11, in every statement below. -/

open Sys2Proof Sys2Proof.Machine

/-! ### Encoding -/

/-- Every well-formed instruction is read back from its bytes, whatever bytes follow (`30_encoding.md` sections 1 to
5). -/
def Obligations.EncodeThenDecodeIsIdentity : Prop :=
  ∀ (i : Instr) (rest : List Byte), wellFormed i = true → decode (encode i ++ rest) = .ok (i, rest)

/-- What is decoded is well formed and encodes to the bytes it was read from: each byte string has one meaning (R67). -/
def Obligations.DecodedBytesReencode : Prop :=
  ∀ (bytes rest : List Byte) (i : Instr),
    decode bytes = .ok (i, rest) → wellFormed i = true ∧ encode i ++ rest = bytes

/-- The opcode byte alone fixes the length, and no opcode byte is rejected (R62). -/
def Obligations.OpcodeByteFixesLength : Prop :=
  ∀ (op : Byte) (rest : List Byte),
    let len := if op.toNat ≤ 0x0F then 2 else if op.toNat ≤ 0x2F ∨ op = 0xC3 ∨ op = 0xC5 then 3 else 1
    (∀ i, wellFormed i = true → encode i = op :: rest → rest.length + 1 = len) ∧
    (len ≤ rest.length + 1 ↔ ∃ i, decode (op :: rest) = .ok (i, rest.drop (len - 1)))

/-- The source's worked encoding, in both directions (R78). -/
def Obligations.WorkedEncodingOfTheSource : Prop :=
  [Instr.ldi 0 0x05, .ldi 1 0x03, .mov 0, .add 1, .sav 0, .halt].flatMap encode =
      [0x00, 0x05, 0x01, 0x03, 0x30, 0x51, 0x40, 0xE1] ∧
    decode [0x00, 0x05, 0x01, 0x03, 0x30, 0x51, 0x40, 0xE1] = .ok (.ldi 0 0x05, [0x01, 0x03, 0x30, 0x51, 0x40, 0xE1]) ∧
    decode [0x01, 0x03, 0x30, 0x51, 0x40, 0xE1] = .ok (.ldi 1 0x03, [0x30, 0x51, 0x40, 0xE1]) ∧
    decode [0x30, 0x51, 0x40, 0xE1] = .ok (.mov 0, [0x51, 0x40, 0xE1]) ∧
    decode [0x51, 0x40, 0xE1] = .ok (.add 1, [0x40, 0xE1]) ∧
    decode [0x40, 0xE1] = .ok (.sav 0, [0xE1]) ∧
    decode [0xE1] = .ok (.halt, [])

/-! ### The step -/

/-- A running engine runs the well-formed instruction whose bytes stand at PC (`40_engine.md` section 1). -/
def Obligations.StepRunsTheDecodedInstruction : Prop :=
  ∀ (s : State) (i : Instr),
    Running s → wellFormed i = true → HoldsAt s.mem s.pc (encode i) → step s = exec i s

/-- Whatever stands at PC, it is some well-formed instruction, and the running engine runs it (R67, R83). -/
def Obligations.EveryByteStringAtPcRuns : Prop :=
  ∀ s : State, Running s →
    ∃ i, wellFormed i = true ∧ HoldsAt s.mem s.pc (encode i) ∧ step s = exec i s

/-- An instruction placed at PC as the opcode table numbers its bits is the one that runs next. Log entry 8. -/
def Obligations.PlacedWordRunsNext : Prop :=
  ∀ (s : State) (nbits w : Nat) (i : Instr), Running s → decodeTableWord nbits w = some i →
    step (s.withFetchWord nbits w) = exec i (s.withFetchWord nbits w)

/-- An engine that is halted, suspended or faulted changes nothing, however often it is stepped. That "no step" is a
next state equal to the old one is the model's choice, log entry 1. -/
def Obligations.StoppedEngineNeverStepsAgain : Prop :=
  ∀ (k : Nat) (s : State), s.status ≠ .running ∨ s.fault ≠ none → runFor k s = .next s

/-- No instruction and no step ends in an outcome `fault` or `refused`. That an error is a next state with FAULT set
is log entry 2. -/
def Obligations.EveryInstructionAnswersANextState : Prop :=
  (∀ (i : Instr) (s : State), ∃ t, exec i s = .next t) ∧ ∀ s : State, ∃ t, step s = .next t

/-! ### Loads, stores, transfers, arithmetic -/

/-- LDI, with its frame (R95). -/
def Obligations.LdiLoadsTheImmediate : Prop :=
  ∀ (n : RegIdx) (imm : Byte) (s : State), ∃ t,
    StepsTo (.ldi n imm) [0x0#4 ++ n, imm] s t ∧ readReg t n = imm ∧ CompletedPast 2 s t ∧ OnlyReg n s t

/-- LD, with its frame (R96). -/
def Obligations.LdLoadsTheAddressedByte : Prop :=
  ∀ (n : RegIdx) (hi lo : Byte) (s : State), ∃ t,
    StepsTo (.ld n (hi ++ lo)) [0x1#4 ++ n, hi, lo] s t ∧ readReg t n = readMem s (hi ++ lo) ∧
      CompletedPast 3 s t ∧ OnlyReg n s t

/-- ST, with its frame: every byte but the addressed one reads as before (R97). -/
def Obligations.StStoresTheRegister : Prop :=
  ∀ (n : RegIdx) (hi lo : Byte) (s : State), ∃ t,
    StepsTo (.st n (hi ++ lo)) [0x2#4 ++ n, hi, lo] s t ∧ readMem t (hi ++ lo) = readReg s n ∧
      (∀ a : Addr, a ≠ hi ++ lo → readMem t a = readMem s a) ∧
      CompletedPast 3 s t ∧ t.acc = s.acc ∧ SameRegs s t ∧ t.sp = s.sp

/-- MOV and SAV (R99, R100). -/
def Obligations.MovAndSavCopyAByte : Prop :=
  ∀ (n : RegIdx) (s : State),
    WritesAcc (.mov n) [0x3#4 ++ n] s (readReg s n).toNat ∧
    ∃ t, StepsTo (.sav n) [0x4#4 ++ n] s t ∧ readReg t n = s.acc ∧ CompletedPast 1 s t ∧ OnlyReg n s t

/-- ADD, SUB and MUL, modulo 256 (R101 to R103). -/
def Obligations.AddSubMulWrapModulo256 : Prop :=
  ∀ (n : RegIdx) (s : State),
    WritesAcc (.add n) [0x5#4 ++ n] s ((s.acc.toNat + (readReg s n).toNat) % 256) ∧
    WritesAcc (.sub n) [0x6#4 ++ n] s ((((s.acc.toNat : Int) - (readReg s n).toNat) % 256).toNat) ∧
    WritesAcc (.mul n) [0x7#4 ++ n] s ((s.acc.toNat * (readReg s n).toNat) % 256)

/-- The result byte of ADD, SUB and MUL is also the two's-complement one. The spec marks this remark of R98 as
derived. -/
def Obligations.AddSubMulAgreeWithSignedArithmetic : Prop :=
  ∀ (n : RegIdx) (s t : State),
    (exec (.add n) s = .next t → t.acc.toInt = (s.acc.toInt + (readReg s n).toInt).bmod 256) ∧
    (exec (.sub n) s = .next t → t.acc.toInt = (s.acc.toInt - (readReg s n).toInt).bmod 256) ∧
    (exec (.mul n) s = .next t → t.acc.toInt = (s.acc.toInt * (readReg s n).toInt).bmod 256)

/-- AND and OR (R105, R106). -/
def Obligations.AndOrAreBitwise : Prop :=
  ∀ (n : RegIdx) (s : State),
    WritesAcc (.and n) [0x9#4 ++ n] s (s.acc.toNat &&& (readReg s n).toNat) ∧
    WritesAcc (.or n) [0xA#4 ++ n] s (s.acc.toNat ||| (readReg s n).toNat)

/-- DIV by a nonzero register gives the unsigned quotient. Unsigned is the spec's decision D9, log entry 12. -/
def Obligations.DivGivesTheUnsignedQuotient : Prop :=
  ∀ (n : RegIdx) (s : State), readReg s n ≠ 0 →
    WritesAcc (.div n) [0x8#4 ++ n] s (s.acc.toNat / (readReg s n).toNat)

/-- DIV by a zero register raises DivideByZero and writes nothing. The spec's decision D10, log entry 13. -/
def Obligations.DivByZeroRaises : Prop :=
  ∀ (n : RegIdx) (s : State), readReg s n = 0 → Raises .divideByZero (.div n) [0x8#4 ++ n] s

/-- INC and DEC, modulo 256 (R108, R109). -/
def Obligations.IncDecWrapModulo256 : Prop :=
  ∀ s : State,
    WritesAcc .inc [0xB0] s ((s.acc.toNat + 1) % 256) ∧
    WritesAcc .dec [0xB1] s ((((s.acc.toNat : Int) - 1) % 256).toNat)

/-- SHL and SHR, logical (R110, R111). -/
def Obligations.ShiftsAreLogical : Prop :=
  ∀ s : State,
    WritesAcc .shl [0xB2] s ((s.acc.toNat * 2) % 256) ∧
    WritesAcc .shr [0xB3] s (s.acc.toNat / 2)

/-- NEG and NOT (R112, R113). -/
def Obligations.NegAndNot : Prop :=
  ∀ s : State,
    WritesAcc .neg [0xB4] s (((0 - (s.acc.toNat : Int)) % 256).toNat) ∧
    WritesAcc .not [0xB5] s (0xFF - s.acc.toNat)

/-! ### Control transfer -/

/-- SKZ, SKP and SKN: PC is one byte further exactly when FLAG has the tested value, and where FLAG classifies ACC,
exactly when ACC is in the tested range; FLAG is then unchanged (`44_control.md` section 1). The distance of one byte
is kept by the spec's decision D24, log entry 20. -/
def Obligations.SkipsTestTheFlag : Prop :=
  ∀ s : State,
    (∃ t, StepsTo .skz [0xC0] s t ∧ CompletedPast (if s.flag = .zero then 2 else 1) s t ∧ SameData s t ∧
      (s.flag = classify s.acc → t.flag = s.flag ∧ (t.pc = s.pc + 2 ↔ s.acc.toNat = 0))) ∧
    (∃ t, StepsTo .skp [0xC1] s t ∧ CompletedPast (if s.flag = .positive then 2 else 1) s t ∧ SameData s t ∧
      (s.flag = classify s.acc → t.flag = s.flag ∧ (t.pc = s.pc + 2 ↔ 1 ≤ s.acc.toNat ∧ s.acc.toNat ≤ 0x7F))) ∧
    (∃ t, StepsTo .skn [0xC2] s t ∧ CompletedPast (if s.flag = .negative then 2 else 1) s t ∧ SameData s t ∧
      (s.flag = classify s.acc → t.flag = s.flag ∧ (t.pc = s.pc + 2 ↔ 0x80 ≤ s.acc.toNat)))

/-- CALL on a stack that is not full: A+1 is pushed high byte first, SP goes up by 2 modulo 256, no other byte of
memory changes, and PC is the operand: as the instruction carries it where the push does not touch it, and in any case
as memory holds it after the push. SP arithmetic, the order of push and operand read and the full-stack rule are the
spec's decisions D7, D13, D23; log entries 18, 16, 6. -/
def Obligations.CallPushesAndJumps : Prop :=
  ∀ (hi lo : Byte) (s : State), s.sp ≠ 0xFF → (s.sp = 0xFE → s.stackFullPolicy = .wrap) → ∃ t,
    StepsTo (.call (hi ++ lo)) [0xC3, hi, lo] s t ∧
      (readMem t (stackAddr s.sp)).toNat = (s.pc + 1).toNat / 256 ∧
      (readMem t (stackAddr (s.sp + 1))).toNat = (s.pc + 1).toNat % 256 ∧
      (∀ a, a ≠ stackAddr s.sp → a ≠ stackAddr (s.sp + 1) → readMem t a = readMem s a) ∧
      t.sp.toNat = (s.sp.toNat + 2) % 256 ∧
      ((∀ a, a = s.pc + 1 ∨ a = s.pc + 2 → a ≠ stackAddr s.sp ∧ a ≠ stackAddr (s.sp + 1)) → t.pc = hi ++ lo) ∧
      (HoldsAt s.mem (s.pc + 1) [hi, lo] → t.pc = readMem t (s.pc + 1) ++ readMem t (s.pc + 2)) ∧
      t.flag = classify t.acc ∧ SameControl s t ∧ t.acc = s.acc ∧ SameRegs s t

/-- CALL on a full stack raises StackOverflow before any write: SP = 0xFF, or SP = 0xFE under the policy `fault`
(D23, log entry 6). -/
def Obligations.CallOnAFullStackRaises : Prop :=
  ∀ (hi lo : Byte) (s : State), s.sp = 0xFF ∨ (s.sp = 0xFE ∧ s.stackFullPolicy = .fault) →
    Raises .stackOverflow (.call (hi ++ lo)) [0xC3, hi, lo] s

/-- RET on a stack that is not empty: the popped value plus 2 goes to PC and SP goes down by 2; memory is not touched.
The wraps are the spec's decisions D6 and D7, log entries 11 and 18. -/
def Obligations.RetPopsAndSkipsTheOperand : Prop :=
  ∀ s : State, s.sp ≠ 0 → ∃ t,
    StepsTo .ret [0xC4] s t ∧
      t.pc.toNat = ((readMem s (stackAddr (s.sp - 2))).toNat * 256 + (readMem s (stackAddr (s.sp - 1))).toNat + 2) % 65536 ∧
      t.sp = s.sp - 2 ∧ t.flag = classify t.acc ∧ SameControl s t ∧ t.acc = s.acc ∧ SameRegs s t ∧ SameMem s t

/-- RET on an empty stack raises StackUnderflow and writes nothing (`44_control.md` section 2). -/
def Obligations.RetOnAnEmptyStackRaises : Prop :=
  ∀ s : State, s.sp = 0 → Raises .stackUnderflow .ret [0xC4] s

/-- JMP. That it makes no stack check is the spec's decision D8, log entry 22. -/
def Obligations.JmpGoesToItsTarget : Prop :=
  ∀ (hi lo : Byte) (s : State), ∃ t,
    StepsTo (.jmp (hi ++ lo)) [0xC5, hi, lo] s t ∧ t.pc = hi ++ lo ∧ t.flag = classify t.acc ∧
      SameControl s t ∧ SameData s t

/-- The call-return law: a RET that finds SP as the CALL left it and the two stack bytes as the CALL wrote them
resumes after the 3-byte CALL; after a CALL that wrapped SP to 0 a RET raises StackUnderflow. The spec marks R121 as
derived. -/
def Obligations.CallThenRetResumesAfterTheCall : Prop :=
  ∀ (target : Addr) (s t : State), exec (.call target) s = .next t → t.fault = none →
    (s.sp.toNat ≤ 0xFC → ∀ u : State, u.sp = t.sp →
      readMem u (stackAddr s.sp) = readMem t (stackAddr s.sp) →
      readMem u (stackAddr (s.sp + 1)) = readMem t (stackAddr (s.sp + 1)) →
      ∃ v, exec .ret u = .next v ∧ v.pc = s.pc + 3 ∧ v.sp = s.sp) ∧
    (s.sp = 0xFE → t.sp = 0 ∧ ∃ v, exec .ret t = .next v ∧ v.fault = some .stackUnderflow)

/-! ### Bus -/

/-- BUSR with an answer `ok(v)` (`45_bus_io.md` section 2). The answers are a free input, log entry 3. -/
def Obligations.BusrReadsTheDeliveredByte : Prop :=
  ∀ (v : Byte) (rest : List ReadAnswer) (s : State), s.bus.readAnswers = .ok v :: rest → ∃ t,
    StepsTo .busr [0xD0] s t ∧ t.acc = v ∧ t.pc = s.pc + 1 ∧ t.flag = classify v ∧ OnlyAcc s t ∧
      t.status = s.status ∧ t.fault = s.fault ∧ t.stackFullPolicy = s.stackFullPolicy ∧
      t.bus = { s.bus with readAnswers := rest, history := .read (.ok v) :: s.bus.history }

/-- BUSW and BUSCLR with an answer `ok`: the bus receives ACC, or the reset request, and the block changes only PC and
the recomputed FLAG (`45_bus_io.md` section 2). -/
def Obligations.BuswAndBusclrTransact : Prop :=
  ∀ (rest : List Ack) (s : State),
    (s.bus.writeAnswers = .ok :: rest → ∃ t,
      StepsTo .busw [0xD1] s t ∧ t.pc = s.pc + 1 ∧ t.flag = classify t.acc ∧ SameData s t ∧
        t.status = s.status ∧ t.fault = s.fault ∧ t.stackFullPolicy = s.stackFullPolicy ∧
        t.bus = { s.bus with writeAnswers := rest, history := .write s.acc .ok :: s.bus.history }) ∧
    (s.bus.resetAnswers = .ok :: rest → ∃ t,
      StepsTo .busclr [0xD2] s t ∧ t.pc = s.pc + 1 ∧ t.flag = classify t.acc ∧ SameData s t ∧
        t.status = s.status ∧ t.fault = s.fault ∧ t.stackFullPolicy = s.stackFullPolicy ∧
        t.bus = { s.bus with resetAnswers := rest, history := .reset .ok :: s.bus.history })

/-- A `fail` answer to any of the three transactions raises BusFailure, and ACC is not written. The spec's decision
D12, log entry 15. -/
def Obligations.BusFailAnswerRaises : Prop :=
  ∀ s : State,
    (s.bus.readAnswers.head? = some .fail →
      ∃ t, StepsTo .busr [0xD0] s t ∧ RaisedPrecisely .busFailure s t ∧
        t.bus.history = .read .fail :: s.bus.history) ∧
    (s.bus.writeAnswers.head? = some .fail →
      ∃ t, StepsTo .busw [0xD1] s t ∧ RaisedPrecisely .busFailure s t ∧
        t.bus.history = .write s.acc .fail :: s.bus.history) ∧
    (s.bus.resetAnswers.head? = some .fail →
      ∃ t, StepsTo .busclr [0xD2] s t ∧ RaisedPrecisely .busFailure s t ∧
        t.bus.history = .reset .fail :: s.bus.history)

/-- A bus instruction that the environment does not answer changes nothing, for as many steps as no answer comes
(`45_bus_io.md` section 1, R125). That waiting is a next state equal to the old one is log entry 4. -/
def Obligations.UnansweredBusInstructionWaits : Prop :=
  ∀ (k : Nat) (s : State), Running s → WaitsForBus s → runFor k s = .next s

/-! ### System, reserved and undefined opcodes -/

/-- NOP and HALT (`46_system.md` R133, R134). That the halted engine's "no step" is a next state equal to the old one is
log entry 1. -/
def Obligations.NopAndHalt : Prop :=
  ∀ s : State,
    (∃ t, StepsTo .nop [0xE0] s t ∧ CompletedPast 1 s t ∧ SameData s t) ∧
    (∃ t, StepsTo .halt [0xE1] s t ∧ t.status = .halted ∧ t.pc = s.pc + 1 ∧ t.flag = classify t.acc ∧
      t.fault = s.fault ∧ t.bus = s.bus ∧ t.stackFullPolicy = s.stackFullPolicy ∧ SameData s t ∧
      ∀ k, runFor k t = .next t)

/-- The reserved family always raises ReservedOpcode, whatever its low nibble (R135, R142). That an error is a next
state with FAULT set is log entry 2. -/
def Obligations.ReservedFamilyRaises : Prop :=
  ∀ (low : RegIdx) (s : State), Raises .reservedOpcode (.reserved low) [0xF#4 ++ low] s

/-- Every undefined opcode raises InvalidOpcode and reads no operand. The spec's decision D11, log entry 14. -/
def Obligations.UndefinedOpcodesRaise : Prop :=
  (∀ (op : Byte) (s : State) (i : Instr),
    i ∈ [.undefB6 op, .undefB8 op, .undefC6 op, .undefC8 op, .undefD3, .undefD4 op, .undefD8 op, .undefE2 op,
      .undefE4 op, .undefE8 op] →
    ∃ t, exec i s = .next t ∧ RaisedPrecisely .invalidOpcode s t ∧ t.bus = s.bus) ∧
  ∀ s : State, Running s → IsUndefinedOpcode (opcodeAt s) →
    ∃ t, step s = .next t ∧ RaisedPrecisely .invalidOpcode s t ∧ t.bus = s.bus

/-! ### Rules about the whole machine -/

/-- Each of the six errors has its one cause (`60_exceptions.md` section 1). -/
def Obligations.EachErrorHasItsCause : Prop :=
  ∀ (s t : State) (e : ExecError), Running s → step s = .next t → t.fault = some e →
    match e with
    | .invalidOpcode => IsUndefinedOpcode (opcodeAt s)
    | .reservedOpcode => 0xF0 ≤ (opcodeAt s).toNat
    | .stackOverflow => opcodeAt s = 0xC3 ∧ (s.sp = 0xFF ∨ (s.sp = 0xFE ∧ s.stackFullPolicy = .fault))
    | .stackUnderflow => opcodeAt s = 0xC4 ∧ s.sp = 0
    | .busFailure => FailsOnBus s
    | .divideByZero => ∃ n : RegIdx, opcodeAt s = 0x8#4 ++ n ∧ readReg s n = 0

/-- A step that records an error leaves the precise state (`60_exceptions.md` section 1; the spec marks R145 as
derived; PC is its decision D14, log entry 17). -/
def Obligations.ErrorLeavesThePreciseState : Prop :=
  ∀ (s t : State) (e : ExecError), Running s → step s = .next t → t.fault = some e → RaisedPrecisely e s t

/-- The classification function (R87), and that every completed step sets FLAG by it from ACC as the step leaves it
(`40_engine.md` section 2). -/
def Obligations.CompletedStepClassifiesAcc : Prop :=
  (∀ v : Byte, classify v = if v.toNat = 0 then .zero else if v.getLsbD 7 then .negative else .positive) ∧
  ∀ s t : State, Running s → step s = .next t → t.fault = none → ¬ WaitsForBus s →
    t.flag = classify t.acc ∧ t.flag ≠ .error ∧
    (t.flag = .zero ↔ t.acc.toNat = 0) ∧
    (t.flag = .positive ↔ 1 ≤ t.acc.toNat ∧ t.acc.toNat ≤ 0x7F) ∧
    (t.flag = .negative ↔ 0x80 ≤ t.acc.toNat)

/-- ACC, a general register and SP change only in the steps of the instructions that write them (`10_state.md`
sections 2, 4 and 11). -/
def Obligations.OnlyTheirInstructionsWriteRegisters : Prop :=
  ∀ s t : State, step s = .next t →
    (t.acc ≠ s.acc →
      ((0x30 ≤ (opcodeAt s).toNat ∧ (opcodeAt s).toNat ≤ 0x3F) ∨ (0x50 ≤ (opcodeAt s).toNat ∧ (opcodeAt s).toNat ≤ 0xB5) ∨
        opcodeAt s = 0xD0)) ∧
    (∀ n : RegIdx, readReg t n ≠ readReg s n →
      opcodeAt s = 0x0#4 ++ n ∨ opcodeAt s = 0x1#4 ++ n ∨ opcodeAt s = 0x4#4 ++ n) ∧
    (t.sp ≠ s.sp → (opcodeAt s = 0xC3 ∧ t.sp = s.sp + 2) ∨ (opcodeAt s = 0xC4 ∧ t.sp = s.sp - 2))

/-- A byte of memory changes only by a ST to its address or by a CALL whose push reaches it (`20_memory.md` sections
1 and 4; `10_state.md` section 11). -/
def Obligations.OnlyStAndCallWriteMemory : Prop :=
  ∀ (s t : State) (a : Addr), step s = .next t → readMem t a ≠ readMem s a →
    (0x20 ≤ (opcodeAt s).toNat ∧ (opcodeAt s).toNat ≤ 0x2F ∧ a = readMem s (s.pc + 1) ++ readMem s (s.pc + 2)) ∨
    (opcodeAt s = 0xC3 ∧ (a = stackAddr s.sp ∨ a = stackAddr (s.sp + 1)))

/-- STATUS changes only by HALT, and only to HALTED; a recorded error never changes again (`10_state.md` section 6). -/
def Obligations.StatusChangesOnlyByHalt : Prop :=
  ∀ s t : State, step s = .next t →
    (t.status ≠ s.status → Running s ∧ opcodeAt s = 0xE1 ∧ t.status = .halted) ∧
    (s.fault ≠ none → t.fault = s.fault)

/-- Only the three bus instructions transact, once each (`45_bus_io.md` section 1). The history is the model's field,
log entry 5. -/
def Obligations.OnlyBusInstructionsTransact : Prop :=
  ∀ s t : State, step s = .next t → t.bus ≠ s.bus →
    (0xD0 ≤ (opcodeAt s).toNat ∧ (opcodeAt s).toNat ≤ 0xD2) ∧ ∃ x, t.bus.history = x :: s.bus.history

/-- What the bus environment is going to answer cannot reach a step that makes no transaction: two states that differ
in it alone step to states that differ in it alone (`10_state.md` section 8). -/
def Obligations.BusEnvironmentReachesOnlyBusInstructions : Prop :=
  ∀ (s t : State) (b : Bus), ¬ (0xD0 ≤ (opcodeAt s).toNat ∧ (opcodeAt s).toNat ≤ 0xD2) →
    step s = .next t → step (setBus b s) = .next (setBus b t)

/-- Every step keeps the invariant of the machine, from every state that has it. -/
def Obligations.EveryStepKeepsTheInvariant : Prop :=
  ∀ s t : State, Inv s → step s = .next t → Inv t

/-- The invariant holds after every accepted Reset, and at `State.reset`, which is Reset with the empty image (log
entry 8). -/
def Obligations.ResetEstablishesTheInvariant : Prop :=
  (∀ (image : List Byte) (s t : State), hostReset image s = .loaded t → Inv t) ∧ Inv State.reset ∧
    hostReset [] State.reset = .loaded State.reset

/-- Reset loads the image at 0x0800 and sets everything else to its reset value; an image of more than 63487 bytes is
refused (`70_reset_and_hazards.md` section 1; FAULT and the limit are the spec's decisions D4 and D19, log entries 2
and 19; that the bus environment stays is log entry 9). -/
def Obligations.ResetLoadsTheImage : Prop :=
  ∀ (image : List Byte) (s : State),
    (63487 < image.length → hostReset image s = .oversizeImage) ∧
    (image.length ≤ 63487 → ∃ t, hostReset image s = .loaded t ∧
      t.status = .running ∧ t.pc = 0x0800 ∧ t.acc = 0x00 ∧ (∀ n, readReg t n = 0x00) ∧ t.flag = .zero ∧
      t.sp = 0x00 ∧ t.fault = none ∧
      (∀ (k : Nat) (h : k < image.length), readMem t (BitVec.ofNat 16 (0x0800 + k)) = image[k]) ∧
      (∀ a : Addr, a.toNat < 0x0800 ∨ 0x0800 + image.length ≤ a.toNat → readMem t a = 0x00) ∧
      t.bus = s.bus ∧ t.stackFullPolicy = s.stackFullPolicy)

/-- Two memories in canonical form that read the same everywhere are the same list (the form is log entry 7). -/
def Obligations.MemoryFormIsCanonical : Prop :=
  ∀ m₁ m₂ : Memory, m₁.wf → m₂.wf → (∀ a : Addr, m₁.read a = m₂.read a) → m₁ = m₂

/-- A store to the byte after the ST is what the very next step fetches and runs (`20_memory.md` section 5; the spec
marks R57 as derived and its decision D20, log entry 23). -/
def Obligations.StoreIsSeenByTheNextFetch : Prop :=
  ∀ (n : RegIdx) (hi lo : Byte) (s t : State), Running s → HoldsAt s.mem s.pc [0x2#4 ++ n, hi, lo] →
    hi ++ lo = s.pc + 3 → step s = .next t →
    Running t ∧ opcodeAt t = readReg s n ∧
      step t = exec (decodeOpcode (readReg s n) (readMem s (s.pc + 4)) (readMem s (s.pc + 5))) t

/-- After any number of steps from reset a run is halted, or stopped by an error, or still running (R94): SUSPENDED is
never reached. -/
def Obligations.RunIsHaltedFaultedOrRunning : Prop :=
  ∀ (k : Nat) (image : List Byte) (s t u : State), hostReset image s = .loaded t →
    runFor k t = .next u → HaltedEnd u ∨ FaultedEnd u ∨ Running u

/-- A run that ends with no error recorded was safe at every step: errors are not cleared (`60_exceptions.md`
section 1). -/
def Obligations.RunWithoutRecordedErrorWasSafe : Prop :=
  ∀ (k : Nat) (s t : State), runFor k s = .next t → t.fault = none → SafeRun k s

/-- Observe answers once the engine has stopped, with the state tuple and the numeric codes of R35 (the spec's
decisions D3 and D5; that it answers nothing before is log entry 25). -/
def Obligations.ObserveReadsAStoppedEngine : Prop :=
  ∀ s : State,
    (Running s → observe s = none) ∧
    (¬ Running s → ∃ o, observe s = some o ∧ o.acc = s.acc ∧ o.regs = s.regs ∧ o.mem = s.mem ∧ o.pc = s.pc ∧
      o.sp = s.sp ∧
      o.flag.toNat = (match s.flag with | .zero => 0 | .positive => 1 | .negative => 2 | .error => 3) ∧
      o.status.toNat = (match s.status with | .running => 0 | .suspended => 1 | .halted => 2) ∧
      o.fault.toNat = (match s.fault with
        | none => 0 | some .invalidOpcode => 1 | some .reservedOpcode => 2 | some .stackOverflow => 3
        | some .stackUnderflow => 4 | some .busFailure => 5 | some .divideByZero => 6))

/-- From the state after an error the host can compute where the instruction stood (`60_exceptions.md` section 2; the
spec marks R146 as derived). -/
def Obligations.FaultingAddressIsThatOfTheInstruction : Prop :=
  ∀ (s t : State) (e : ExecError), Running s → step s = .next t → t.fault = some e → faultingAddress t = some s.pc

/-- The answer lists of State stand for every bus environment: a run of any length against any function from histories
to answers is, apart from the answers still to come, a run with some lists of answers (the model's form of `busEnv`,
log entry 3; `93_implementation_defined.md` section 2). -/
def Obligations.AnswerListsCoverEveryBusEnvironment : Prop :=
  ∀ (env : BusEnvironment) (k : Nat) (s t : State), runIn env k s = .next t →
    ∃ (reads : List ReadAnswer) (writes resets : List Ack) (u : State),
      runFor k (withAnswers reads writes resets s) = .next u ∧
        withAnswers [] [] [] u = withAnswers [] [] [] t
end

