-- ==== Sys2Proof/Laws/Decode.lean ====
section
/-! SUPPORT. The small lemmas of the bit fields, the byte order and the decoder. -/

namespace Sys2Proof

@[simp] theorem highNibble_opcodeByte (family low : BitVec 4) : highNibble (opcodeByte family low) = family := by
  revert family low
  decide

@[simp] theorem lowNibble_opcodeByte (family low : BitVec 4) : lowNibble (opcodeByte family low) = low := by
  revert family low
  decide

@[simp] theorem opcodeByte_nibbles (op : Byte) : opcodeByte (highNibble op) (lowNibble op) = op := by
  revert op
  decide

theorem joinBytes_toNat (hi lo : Byte) : (joinBytes hi lo).toNat = hi.toNat * 256 + lo.toNat := by
  have := lo.isLt
  simp only [joinBytes, BitVec.toNat_append]
  rw [← Nat.shiftLeft_add_eq_or_of_lt this, Nat.shiftLeft_eq]

theorem hiByte_toNat (a : Addr) : (hiByte a).toNat = a.toNat / 256 := by
  have := a.isLt
  simp only [hiByte, BitVec.extractLsb'_toNat, Nat.shiftRight_eq_div_pow]
  omega

theorem loByte_toNat (a : Addr) : (loByte a).toNat = a.toNat % 256 := by
  simp [loByte, BitVec.extractLsb'_toNat]

@[simp] theorem joinBytes_hiByte_loByte (a : Addr) : joinBytes (hiByte a) (loByte a) = a := by
  apply BitVec.eq_of_toNat_eq
  rw [joinBytes_toNat, hiByte_toNat, loByte_toNat]
  omega

@[simp] theorem hiByte_joinBytes (hi lo : Byte) : hiByte (joinBytes hi lo) = hi := by
  apply BitVec.eq_of_toNat_eq
  have := lo.isLt
  rw [hiByte_toNat, joinBytes_toNat]
  omega

@[simp] theorem loByte_joinBytes (hi lo : Byte) : loByte (joinBytes hi lo) = lo := by
  apply BitVec.eq_of_toNat_eq
  have := lo.isLt
  rw [loByte_toNat, joinBytes_toNat]
  omega

/-- An instruction has one, two or three bytes (R62). -/
theorem instrLength_mem (op : Byte) : instrLength op = 1 ∨ instrLength op = 2 ∨ instrLength op = 3 := by
  revert op
  decide

/-- The length of a family's instructions, where the family fixes it (R62). -/
@[simp] theorem instrLength_opcodeByte_0 (n : BitVec 4) : instrLength (opcodeByte 0#4 n) = 2 := by decide +revert
@[simp] theorem instrLength_opcodeByte_1 (n : BitVec 4) : instrLength (opcodeByte 1#4 n) = 3 := by decide +revert
@[simp] theorem instrLength_opcodeByte_2 (n : BitVec 4) : instrLength (opcodeByte 2#4 n) = 3 := by decide +revert
@[simp] theorem instrLength_opcodeByte_3 (n : BitVec 4) : instrLength (opcodeByte 3#4 n) = 1 := by decide +revert
@[simp] theorem instrLength_opcodeByte_4 (n : BitVec 4) : instrLength (opcodeByte 4#4 n) = 1 := by decide +revert
@[simp] theorem instrLength_opcodeByte_5 (n : BitVec 4) : instrLength (opcodeByte 5#4 n) = 1 := by decide +revert
@[simp] theorem instrLength_opcodeByte_6 (n : BitVec 4) : instrLength (opcodeByte 6#4 n) = 1 := by decide +revert
@[simp] theorem instrLength_opcodeByte_7 (n : BitVec 4) : instrLength (opcodeByte 7#4 n) = 1 := by decide +revert
@[simp] theorem instrLength_opcodeByte_8 (n : BitVec 4) : instrLength (opcodeByte 8#4 n) = 1 := by decide +revert
@[simp] theorem instrLength_opcodeByte_9 (n : BitVec 4) : instrLength (opcodeByte 9#4 n) = 1 := by decide +revert
@[simp] theorem instrLength_opcodeByte_10 (n : BitVec 4) : instrLength (opcodeByte 10#4 n) = 1 := by decide +revert
@[simp] theorem instrLength_opcodeByte_15 (n : BitVec 4) : instrLength (opcodeByte 15#4 n) = 1 := by decide +revert

/-- A one-byte instruction does not look at the bytes after its opcode. -/
theorem decodeOpcode_one {op : Byte} (h : instrLength op = 1) (b1 b2 c1 c2 : Byte) :
    decodeOpcode op b1 b2 = decodeOpcode op c1 c2 := by
  unfold instrLength at h
  unfold decodeOpcode decodeControl
  split <;> simp_all
  split <;> simp_all

/-- An instruction of at most two bytes does not look at the second byte after its opcode. -/
theorem decodeOpcode_two {op : Byte} (h : instrLength op ≤ 2) (b1 b2 c2 : Byte) :
    decodeOpcode op b1 b2 = decodeOpcode op b1 c2 := by
  unfold instrLength at h
  unfold decodeOpcode decodeControl
  split <;> simp_all
  split <;> simp_all

/-- An opcode byte whose row bounds the low nibble decodes as its row says (R65). -/
theorem decodeOpcode_undef {row : Byte → Instr} {op : Byte}
    (h : ∀ op, wellFormed (row op) = true → instrLength op = 1 ∧ decodeOpcode op 0 0 = row op)
    (hw : wellFormed (row op) = true) (b1 b2 : Byte) : decodeOpcode op b1 b2 = row op :=
  (decodeOpcode_one (h op hw).1 b1 b2 0 0).trans (h op hw).2

/-- Decoding a list that starts with a whole instruction. -/
theorem decode_cons (op : Byte) (rest : List Byte) (h : instrLength op ≤ rest.length + 1) :
    decode (op :: rest) = .ok (decodeOpcode op (rest.getD 0 0) (rest.getD 1 0), rest.drop (instrLength op - 1)) := by
  simp [decode, Nat.not_lt.mpr h]

end Sys2Proof
end

