-- ==== Sys2Proof/Laws/State.lean ====
section
/-! SUPPORT. One lemma per field per update of State, so that no later proof unfolds a record update; then reading a
register and a byte of memory after an update that does not write them. -/

namespace Sys2Proof.Machine

variable (s : State)

/-! ### writeReg -/

section
variable (n : RegIdx) (v : Byte)

@[simp] theorem writeReg_acc : (writeReg n v s).acc = s.acc := rfl
@[simp] theorem writeReg_regs : (writeReg n v s).regs = s.regs.set n.toNat v n.isLt := rfl
@[simp] theorem writeReg_mem : (writeReg n v s).mem = s.mem := rfl
@[simp] theorem writeReg_pc : (writeReg n v s).pc = s.pc := rfl
@[simp] theorem writeReg_sp : (writeReg n v s).sp = s.sp := rfl
@[simp] theorem writeReg_flag : (writeReg n v s).flag = s.flag := rfl
@[simp] theorem writeReg_status : (writeReg n v s).status = s.status := rfl
@[simp] theorem writeReg_fault : (writeReg n v s).fault = s.fault := rfl
@[simp] theorem writeReg_bus : (writeReg n v s).bus = s.bus := rfl
@[simp] theorem writeReg_stackFullPolicy : (writeReg n v s).stackFullPolicy = s.stackFullPolicy := rfl
@[simp] theorem readMem_writeReg (c : Addr) : readMem (writeReg n v s) c = readMem s c := rfl

end

/-! ### setAcc -/

section
variable (v : Byte)

@[simp] theorem setAcc_acc : (setAcc v s).acc = v := rfl
@[simp] theorem setAcc_regs : (setAcc v s).regs = s.regs := rfl
@[simp] theorem setAcc_mem : (setAcc v s).mem = s.mem := rfl
@[simp] theorem setAcc_pc : (setAcc v s).pc = s.pc := rfl
@[simp] theorem setAcc_sp : (setAcc v s).sp = s.sp := rfl
@[simp] theorem setAcc_flag : (setAcc v s).flag = s.flag := rfl
@[simp] theorem setAcc_status : (setAcc v s).status = s.status := rfl
@[simp] theorem setAcc_fault : (setAcc v s).fault = s.fault := rfl
@[simp] theorem setAcc_bus : (setAcc v s).bus = s.bus := rfl
@[simp] theorem setAcc_stackFullPolicy : (setAcc v s).stackFullPolicy = s.stackFullPolicy := rfl
@[simp] theorem readReg_setAcc (m : RegIdx) : readReg (setAcc v s) m = readReg s m := rfl
@[simp] theorem readMem_setAcc (c : Addr) : readMem (setAcc v s) c = readMem s c := rfl

end

/-! ### setPc -/

section
variable (target : Addr)

@[simp] theorem setPc_acc : (setPc target s).acc = s.acc := rfl
@[simp] theorem setPc_regs : (setPc target s).regs = s.regs := rfl
@[simp] theorem setPc_mem : (setPc target s).mem = s.mem := rfl
@[simp] theorem setPc_pc : (setPc target s).pc = target := rfl
@[simp] theorem setPc_sp : (setPc target s).sp = s.sp := rfl
@[simp] theorem setPc_flag : (setPc target s).flag = s.flag := rfl
@[simp] theorem setPc_status : (setPc target s).status = s.status := rfl
@[simp] theorem setPc_fault : (setPc target s).fault = s.fault := rfl
@[simp] theorem setPc_bus : (setPc target s).bus = s.bus := rfl
@[simp] theorem setPc_stackFullPolicy : (setPc target s).stackFullPolicy = s.stackFullPolicy := rfl
@[simp] theorem readReg_setPc (m : RegIdx) : readReg (setPc target s) m = readReg s m := rfl
@[simp] theorem readMem_setPc (c : Addr) : readMem (setPc target s) c = readMem s c := rfl

end

/-! ### advance -/

section
variable (k : Addr)

@[simp] theorem advance_acc : (advance k s).acc = s.acc := rfl
@[simp] theorem advance_regs : (advance k s).regs = s.regs := rfl
@[simp] theorem advance_mem : (advance k s).mem = s.mem := rfl
@[simp] theorem advance_pc : (advance k s).pc = s.pc + k := rfl
@[simp] theorem advance_sp : (advance k s).sp = s.sp := rfl
@[simp] theorem advance_flag : (advance k s).flag = s.flag := rfl
@[simp] theorem advance_status : (advance k s).status = s.status := rfl
@[simp] theorem advance_fault : (advance k s).fault = s.fault := rfl
@[simp] theorem advance_bus : (advance k s).bus = s.bus := rfl
@[simp] theorem advance_stackFullPolicy : (advance k s).stackFullPolicy = s.stackFullPolicy := rfl
@[simp] theorem readReg_advance (m : RegIdx) : readReg (advance k s) m = readReg s m := rfl
@[simp] theorem readMem_advance (c : Addr) : readMem (advance k s) c = readMem s c := rfl

end

/-! ### setSp -/

section
variable (v : Byte)

@[simp] theorem setSp_acc : (setSp v s).acc = s.acc := rfl
@[simp] theorem setSp_regs : (setSp v s).regs = s.regs := rfl
@[simp] theorem setSp_mem : (setSp v s).mem = s.mem := rfl
@[simp] theorem setSp_pc : (setSp v s).pc = s.pc := rfl
@[simp] theorem setSp_sp : (setSp v s).sp = v := rfl
@[simp] theorem setSp_flag : (setSp v s).flag = s.flag := rfl
@[simp] theorem setSp_status : (setSp v s).status = s.status := rfl
@[simp] theorem setSp_fault : (setSp v s).fault = s.fault := rfl
@[simp] theorem setSp_bus : (setSp v s).bus = s.bus := rfl
@[simp] theorem setSp_stackFullPolicy : (setSp v s).stackFullPolicy = s.stackFullPolicy := rfl
@[simp] theorem readReg_setSp (m : RegIdx) : readReg (setSp v s) m = readReg s m := rfl
@[simp] theorem readMem_setSp (c : Addr) : readMem (setSp v s) c = readMem s c := rfl

end

/-! ### setStatus -/

section
variable (v : Status)

@[simp] theorem setStatus_acc : (setStatus v s).acc = s.acc := rfl
@[simp] theorem setStatus_regs : (setStatus v s).regs = s.regs := rfl
@[simp] theorem setStatus_mem : (setStatus v s).mem = s.mem := rfl
@[simp] theorem setStatus_pc : (setStatus v s).pc = s.pc := rfl
@[simp] theorem setStatus_sp : (setStatus v s).sp = s.sp := rfl
@[simp] theorem setStatus_flag : (setStatus v s).flag = s.flag := rfl
@[simp] theorem setStatus_status : (setStatus v s).status = v := rfl
@[simp] theorem setStatus_fault : (setStatus v s).fault = s.fault := rfl
@[simp] theorem setStatus_bus : (setStatus v s).bus = s.bus := rfl
@[simp] theorem setStatus_stackFullPolicy : (setStatus v s).stackFullPolicy = s.stackFullPolicy := rfl
@[simp] theorem readReg_setStatus (m : RegIdx) : readReg (setStatus v s) m = readReg s m := rfl
@[simp] theorem readMem_setStatus (c : Addr) : readMem (setStatus v s) c = readMem s c := rfl

end

/-! ### setBus -/

section
variable (b : Bus)

@[simp] theorem setBus_acc : (setBus b s).acc = s.acc := rfl
@[simp] theorem setBus_regs : (setBus b s).regs = s.regs := rfl
@[simp] theorem setBus_mem : (setBus b s).mem = s.mem := rfl
@[simp] theorem setBus_pc : (setBus b s).pc = s.pc := rfl
@[simp] theorem setBus_sp : (setBus b s).sp = s.sp := rfl
@[simp] theorem setBus_flag : (setBus b s).flag = s.flag := rfl
@[simp] theorem setBus_status : (setBus b s).status = s.status := rfl
@[simp] theorem setBus_fault : (setBus b s).fault = s.fault := rfl
@[simp] theorem setBus_bus : (setBus b s).bus = b := rfl
@[simp] theorem setBus_stackFullPolicy : (setBus b s).stackFullPolicy = s.stackFullPolicy := rfl
@[simp] theorem readReg_setBus (m : RegIdx) : readReg (setBus b s) m = readReg s m := rfl
@[simp] theorem readMem_setBus (c : Addr) : readMem (setBus b s) c = readMem s c := rfl

end

/-! ### writeMem -/

section
variable (a : Addr) (b : Byte)

@[simp] theorem writeMem_acc : (writeMem a b s).acc = s.acc := rfl
@[simp] theorem writeMem_regs : (writeMem a b s).regs = s.regs := rfl
@[simp] theorem writeMem_mem : (writeMem a b s).mem = s.mem.write a b := rfl
@[simp] theorem writeMem_pc : (writeMem a b s).pc = s.pc := rfl
@[simp] theorem writeMem_sp : (writeMem a b s).sp = s.sp := rfl
@[simp] theorem writeMem_flag : (writeMem a b s).flag = s.flag := rfl
@[simp] theorem writeMem_status : (writeMem a b s).status = s.status := rfl
@[simp] theorem writeMem_fault : (writeMem a b s).fault = s.fault := rfl
@[simp] theorem writeMem_bus : (writeMem a b s).bus = s.bus := rfl
@[simp] theorem writeMem_stackFullPolicy : (writeMem a b s).stackFullPolicy = s.stackFullPolicy := rfl
@[simp] theorem readReg_writeMem (m : RegIdx) : readReg (writeMem a b s) m = readReg s m := rfl

end

/-! ### placeAtPc -/

section
variable (bytes : List Byte)

@[simp] theorem placeAtPc_acc : (placeAtPc bytes s).acc = s.acc := rfl
@[simp] theorem placeAtPc_regs : (placeAtPc bytes s).regs = s.regs := rfl
@[simp] theorem placeAtPc_mem : (placeAtPc bytes s).mem = s.mem.writeBytes s.pc bytes := rfl
@[simp] theorem placeAtPc_pc : (placeAtPc bytes s).pc = s.pc := rfl
@[simp] theorem placeAtPc_sp : (placeAtPc bytes s).sp = s.sp := rfl
@[simp] theorem placeAtPc_flag : (placeAtPc bytes s).flag = s.flag := rfl
@[simp] theorem placeAtPc_status : (placeAtPc bytes s).status = s.status := rfl
@[simp] theorem placeAtPc_fault : (placeAtPc bytes s).fault = s.fault := rfl
@[simp] theorem placeAtPc_bus : (placeAtPc bytes s).bus = s.bus := rfl
@[simp] theorem placeAtPc_stackFullPolicy : (placeAtPc bytes s).stackFullPolicy = s.stackFullPolicy := rfl
@[simp] theorem readReg_placeAtPc (m : RegIdx) : readReg (placeAtPc bytes s) m = readReg s m := rfl

end

/-! ### withAnswers -/

section
variable (r : List ReadAnswer) (w z : List Ack)

@[simp] theorem withAnswers_acc : (withAnswers r w z s).acc = s.acc := rfl
@[simp] theorem withAnswers_regs : (withAnswers r w z s).regs = s.regs := rfl
@[simp] theorem withAnswers_mem : (withAnswers r w z s).mem = s.mem := rfl
@[simp] theorem withAnswers_pc : (withAnswers r w z s).pc = s.pc := rfl
@[simp] theorem withAnswers_sp : (withAnswers r w z s).sp = s.sp := rfl
@[simp] theorem withAnswers_flag : (withAnswers r w z s).flag = s.flag := rfl
@[simp] theorem withAnswers_status : (withAnswers r w z s).status = s.status := rfl
@[simp] theorem withAnswers_fault : (withAnswers r w z s).fault = s.fault := rfl
@[simp] theorem withAnswers_bus : (withAnswers r w z s).bus = { s.bus with readAnswers := r, writeAnswers := w, resetAnswers := z } := rfl
@[simp] theorem withAnswers_stackFullPolicy : (withAnswers r w z s).stackFullPolicy = s.stackFullPolicy := rfl
@[simp] theorem readReg_withAnswers (m : RegIdx) : readReg (withAnswers r w z s) m = readReg s m := rfl
@[simp] theorem readMem_withAnswers (c : Addr) : readMem (withAnswers r w z s) c = readMem s c := rfl

end

/-! ### State.withFetchWord -/

@[simp] theorem withFetchWord_eq (nbits w : Nat) : s.withFetchWord nbits w = placeAtPc (tableBytes nbits w) s := rfl

end Sys2Proof.Machine
end

