-- ==== Sys2Proof/Laws/Memory.lean ====
section
/-! SUPPORT. The laws of memory: what a read gives after a write, and that every memory operation keeps the canonical
form `Memory.wf`. -/

namespace Sys2Proof.Machine

/-! ### Reading after writing -/

@[simp] theorem Memory.find_erase_same (a : Nat) (m : Memory) : Memory.find a (Memory.erase a m) = none := by
  induction m with
  | nil => rfl
  | cons c rest ih =>
    obtain ⟨k, v⟩ := c
    by_cases h : k = a <;> simp [Memory.erase, Memory.find, h, ih]

theorem Memory.find_erase_other {a c : Nat} (h : c ≠ a) (m : Memory) :
    Memory.find c (Memory.erase a m) = Memory.find c m := by
  induction m with
  | nil => rfl
  | cons e rest ih =>
    obtain ⟨k, v⟩ := e
    by_cases hk : k = a
    · subst hk
      simp [Memory.erase, Memory.find, ih, Ne.symm h]
    · simp only [Memory.erase, hk, if_false, Memory.find, ih]

theorem Memory.find_place_same {a : Nat} {m : Memory} (b : Byte) (h : Memory.find a m = none) :
    Memory.find a (Memory.place a b m) = some b := by
  induction m with
  | nil => simp [Memory.place, Memory.find]
  | cons e rest ih =>
    obtain ⟨k, v⟩ := e
    by_cases hk : k = a
    · simp [Memory.find, hk] at h
    · have hr : Memory.find a rest = none := by simpa [Memory.find, hk] using h
      by_cases hl : a < k <;> simp [Memory.place, Memory.find, hl, hk, ih hr]

theorem Memory.find_place_other {a c : Nat} (h : c ≠ a) (b : Byte) (m : Memory) :
    Memory.find c (Memory.place a b m) = Memory.find c m := by
  induction m with
  | nil => simp [Memory.place, Memory.find, Ne.symm h]
  | cons e rest ih =>
    obtain ⟨k, v⟩ := e
    by_cases hl : a < k
    · simp [Memory.place, Memory.find, hl, Ne.symm h]
    · simp only [Memory.place, hl, if_false, Memory.find, ih]

/-- A read returns "the byte most recently written to that address" (R55). -/
@[simp] theorem Memory.read_write_same (m : Memory) (a : Addr) (b : Byte) : (m.write a b).read a = b := by
  by_cases hb : b = Memory.unlisted
  · simp [Memory.read, Memory.write, hb]
  · simp [Memory.read, Memory.write, hb, Memory.find_place_same]

/-- A write leaves every other address alone. -/
theorem Memory.read_write_other {a c : Addr} (h : c ≠ a) (m : Memory) (b : Byte) :
    (m.write a b).read c = m.read c := by
  have hn : c.toNat ≠ a.toNat := fun e => h (BitVec.eq_of_toNat_eq e)
  by_cases hb : b = Memory.unlisted
  · simp [Memory.read, Memory.write, hb, Memory.find_erase_other hn]
  · simp [Memory.read, Memory.write, hb, Memory.find_place_other hn, Memory.find_erase_other hn]

theorem Memory.read_write (m : Memory) (a c : Addr) (b : Byte) :
    (m.write a b).read c = if c = a then b else m.read c := by
  by_cases h : c = a
  · simp [h]
  · simp [h, Memory.read_write_other h]

@[simp] theorem Memory.read_empty (a : Addr) : Memory.read [] a = Memory.unlisted := rfl

theorem readMem_writeMem (s : State) (a c : Addr) (b : Byte) :
    readMem (writeMem a b s) c = if c = a then b else readMem s c := Memory.read_write s.mem a c b

@[simp] theorem readMem_writeMem_same (s : State) (a : Addr) (b : Byte) : readMem (writeMem a b s) a = b :=
  Memory.read_write_same s.mem a b

theorem readMem_writeMem_other {a c : Addr} (h : c ≠ a) (s : State) (b : Byte) :
    readMem (writeMem a b s) c = readMem s c := Memory.read_write_other h s.mem b

/-! ### The canonical form -/

/-- Entries of an erased memory are entries of the memory, and none is at the erased address. -/
theorem Memory.mem_erase {a : Nat} {c : Host.Cell} {m : Memory} (h : c ∈ Memory.erase a m) : c ∈ m ∧ c.1 ≠ a := by
  induction m with
  | nil => simp [Memory.erase] at h
  | cons e rest ih =>
    obtain ⟨k, v⟩ := e
    by_cases hk : k = a
    · simp only [Memory.erase, hk, if_true] at h
      exact ⟨List.mem_cons_of_mem _ (ih h).1, (ih h).2⟩
    · simp only [Memory.erase, hk, if_false, List.mem_cons] at h
      rcases h with rfl | h
      · exact ⟨List.mem_cons_self, hk⟩
      · exact ⟨List.mem_cons_of_mem _ (ih h).1, (ih h).2⟩

theorem Memory.mem_place {a : Nat} {b : Byte} {c : Host.Cell} {m : Memory} (h : c ∈ Memory.place a b m) :
    c = (a, b) ∨ c ∈ m := by
  induction m with
  | nil => simpa [Memory.place] using h
  | cons e rest ih =>
    obtain ⟨k, v⟩ := e
    by_cases hl : a < k
    · simpa [Memory.place, hl] using h
    · simp only [Memory.place, hl, if_false, List.mem_cons] at h
      rcases h with rfl | h
      · exact .inr List.mem_cons_self
      · exact (ih h).imp id (List.mem_cons_of_mem _)

theorem Memory.erase_wf {m : Memory} (a : Nat) (h : m.wf) : (Memory.erase a m : Memory).wf := by
  refine ⟨?_, fun c hc => h.2 c (Memory.mem_erase hc).1⟩
  have hp := h.1
  clear h
  induction m with
  | nil => exact List.Pairwise.nil
  | cons e rest ih =>
    obtain ⟨k, v⟩ := e
    obtain ⟨h1, h2⟩ := List.pairwise_cons.mp hp
    by_cases hk : k = a
    · simpa [Memory.erase, hk] using ih h2
    · simp only [Memory.erase, hk, if_false]
      exact List.pairwise_cons.mpr ⟨fun d hd => h1 d (Memory.mem_erase hd).1, ih h2⟩

theorem Memory.place_pairwise {m : Memory} {a : Nat} (b : Byte) (hp : m.Pairwise (fun c d => c.1 < d.1))
    (hn : ∀ c ∈ m, c.1 ≠ a) : (Memory.place a b m).Pairwise (fun c d => c.1 < d.1) := by
  induction m with
  | nil => exact List.pairwise_singleton _ _
  | cons e rest ih =>
    obtain ⟨k, v⟩ := e
    obtain ⟨h1, h2⟩ := List.pairwise_cons.mp hp
    have hk : k ≠ a := hn (k, v) List.mem_cons_self
    by_cases hl : a < k
    · simp only [Memory.place, hl, if_true]
      refine List.pairwise_cons.mpr ⟨fun d hd => ?_, hp⟩
      rcases List.mem_cons.mp hd with rfl | hd
      · exact hl
      · exact lt_trans hl (h1 d hd)
    · simp only [Memory.place, hl, if_false]
      refine List.pairwise_cons.mpr ⟨fun d hd => ?_, ih h2 fun c hc => hn c (List.mem_cons_of_mem _ hc)⟩
      rcases Memory.mem_place hd with rfl | hd
      · show k < a
        omega
      · exact h1 d hd

/-- Every store keeps the canonical form. -/
theorem Memory.write_wf {m : Memory} (a : Addr) (b : Byte) (h : m.wf) : (m.write a b).wf := by
  have he := Memory.erase_wf a.toNat h
  by_cases hb : b = Memory.unlisted
  · simpa only [Memory.write, hb, if_true] using he
  · simp only [Memory.write, hb, if_false]
    refine ⟨Memory.place_pairwise b he.1 fun c hc => (Memory.mem_erase hc).2, fun c hc => ?_⟩
    rcases Memory.mem_place hc with rfl | hc
    · exact ⟨a.isLt, hb⟩
    · exact he.2 c hc

/-- Placing a list of bytes keeps the canonical form. -/
theorem Memory.writeBytes_wf {m : Memory} (a : Addr) (bytes : List Byte) (h : m.wf) :
    (m.writeBytes a bytes).wf := by
  induction bytes generalizing m a with
  | nil => exact h
  | cons b rest ih => exact ih (a + 1) (Memory.write_wf a b h)

/-- The memory of the reset state is in canonical form. -/
theorem Memory.reset_wf : State.reset.mem.wf := by decide

end Sys2Proof.Machine
end

