-- ==== Sys2Proof/Laws/Regs.lean ====
section
/-! SUPPORT. The laws of the register file (R21, R22). -/

namespace Sys2Proof.Machine

@[simp] theorem readReg_writeReg_same (s : State) (n : RegIdx) (v : Byte) : readReg (writeReg n v s) n = v := by
  simp [readReg]

theorem readReg_writeReg_other {n m : RegIdx} (h : m ≠ n) (s : State) (v : Byte) :
    readReg (writeReg n v s) m = readReg s m := by
  have hn : n.toNat ≠ m.toNat := fun e => h (BitVec.eq_of_toNat_eq e.symm)
  simp [readReg, Vector.getElem_set_ne, hn]

theorem readReg_writeReg (s : State) (n m : RegIdx) (v : Byte) :
    readReg (writeReg n v s) m = if m = n then v else readReg s m := by
  by_cases h : m = n
  · simp [h]
  · simp [h, readReg_writeReg_other h]

/-- Two register files that read the same are the same. -/
theorem regs_ext {s t : State} (h : SameRegs s t) : t.regs = s.regs := by
  refine Vector.ext fun i hi => ?_
  have := h (BitVec.ofNat 4 i)
  simpa [readReg, Nat.mod_eq_of_lt hi] using this

@[simp] theorem readReg_reset (n : RegIdx) : readReg State.reset n = 0 := by
  simp [readReg, State.reset]

end Sys2Proof.Machine
end

