-- ==== Sys2Proof/Laws/Ops.lean ====
section
/-! SUPPORT. One lemma for each shared operation that says everything it does; later proofs cite it and do not unfold
the operation. -/

namespace Sys2Proof.Machine

/-! ### Flag -/

/-- The classification read as a number (R87). -/
theorem classify_toNat (v : Byte) :
    classify v = if v.toNat = 0 then .zero else if 128 ≤ v.toNat then .negative else .positive := by
  revert v
  decide

theorem classify_ne_error (v : Byte) : classify v ≠ .error := by
  revert v
  decide

/-! ### Completing, raising, waiting -/

theorem complete_next {s t : State} : complete s = .next t ↔ t = { s with flag := classify s.acc } := by
  simp [complete, eq_comm]

theorem raise_next {e : ExecError} {s t : State} :
    raise e s = .next t ↔ t = { s with pc := s.pc + 1, fault := some e } := by
  simp [raise, advance, eq_comm]

theorem waitForBus_next {s t : State} : waitForBus s = .next t ↔ t = s := by
  simp [waitForBus, eq_comm]

/-- A raise leaves the precise state of R145 and does not touch the bus environment. -/
theorem raise_spec (e : ExecError) (s : State) :
    ∃ t, raise e s = .next t ∧ RaisedPrecisely e s t ∧ t.bus = s.bus :=
  ⟨_, rfl, ⟨rfl, rfl, rfl, rfl, ⟨rfl, fun _ => rfl, fun _ => rfl, rfl⟩, rfl⟩, rfl⟩

/-- An instruction that ends in `completeAcc` writes ACC and nothing else. -/
theorem completeAcc_spec (v : Byte) (s : State) :
    ∃ t, completeAcc v s = .next t ∧ t.acc = v ∧ CompletedPast 1 s t ∧ OnlyAcc s t :=
  ⟨_, rfl, rfl, ⟨rfl, rfl, rfl, rfl, rfl, rfl⟩, fun _ => rfl, fun _ => rfl, rfl⟩

/-- An instruction that ends in `completeReg` writes R[n] and nothing else. -/
theorem completeReg_spec (n : RegIdx) (v : Byte) (len : Addr) (s : State) :
    ∃ t, completeReg n v len s = .next t ∧ readReg t n = v ∧ CompletedPast len s t ∧ OnlyReg n s t :=
  ⟨_, rfl, readReg_writeReg_same _ n v, ⟨rfl, rfl, rfl, rfl, rfl, rfl⟩, rfl,
    fun _ h => readReg_writeReg_other h (advance len s) v, fun _ => rfl, rfl⟩

/-- A skip moves PC by one byte or by two and changes no data. -/
theorem skipIf_spec (f : Flag) (s : State) :
    ∃ t, skipIf f s = .next t ∧ CompletedPast (if s.flag = f then 2 else 1) s t ∧ SameData s t :=
  ⟨_, rfl, ⟨rfl, rfl, rfl, rfl, rfl, rfl⟩, rfl, fun _ => rfl, fun _ => rfl, rfl⟩

/-! ### The call stack -/

theorem stackAddr_toNat (x : Byte) : (stackAddr x).toNat = x.toNat := by
  have := x.isLt
  simp only [stackAddr, BitVec.toNat_setWidth]
  omega

theorem stackAddr_inj {x y : Byte} : stackAddr x = stackAddr y ↔ x = y := by
  constructor
  · intro h
    apply BitVec.eq_of_toNat_eq
    rw [← stackAddr_toNat x, ← stackAddr_toNat y, h]
  · rintro rfl
    rfl

theorem succ_ne_self (x : Byte) : x + 1 ≠ x := by
  revert x
  decide

theorem stackAddr_succ_ne (x : Byte) : stackAddr (x + 1) ≠ stackAddr x :=
  fun h => succ_ne_self x (stackAddr_inj.mp h)

theorem stackFull_iff (s : State) :
    stackFull s = true ↔ s.sp = 0xFF ∨ (s.sp = 0xFE ∧ s.stackFullPolicy = .fault) := by
  simp [stackFull]

theorem stackEmpty_iff (s : State) : stackEmpty s = true ↔ s.sp = 0 := by
  simp [stackEmpty]

theorem byteAfterPush_hi (s : State) (b : Byte) : byteAfterPush s (stackAddr s.sp) b = hiByte (pushedValue s) := by
  rw [byteAfterPush, if_neg (stackAddr_succ_ne s.sp).symm, if_pos rfl]

theorem byteAfterPush_lo (s : State) (b : Byte) :
    byteAfterPush s (stackAddr (s.sp + 1)) b = loByte (pushedValue s) := by
  rw [byteAfterPush, if_pos rfl]

theorem byteAfterPush_other {s : State} {a : Addr} (hi : a ≠ stackAddr s.sp) (lo : a ≠ stackAddr (s.sp + 1)) (b : Byte) :
    byteAfterPush s a b = b := by
  rw [byteAfterPush, if_neg lo, if_neg hi]

/-- What any byte of memory holds after CALL's push. -/
theorem readMem_pushPc (s : State) (a : Addr) : readMem (pushPc s) a = byteAfterPush s a (readMem s a) := by
  simp only [pushPc, readMem_setSp, readMem_writeMem, byteAfterPush]

@[simp] theorem pushPc_sp (s : State) : (pushPc s).sp = s.sp + 2 := rfl
@[simp] theorem pushPc_acc (s : State) : (pushPc s).acc = s.acc := rfl
@[simp] theorem pushPc_regs (s : State) : (pushPc s).regs = s.regs := rfl
@[simp] theorem readReg_pushPc (s : State) (n : RegIdx) : readReg (pushPc s) n = readReg s n := rfl

theorem pushPc_wf {s : State} (h : s.mem.wf) : (pushPc s).mem.wf :=
  Memory.write_wf _ _ (Memory.write_wf _ _ h)

/-! ### The bus port -/

theorem busRead_none (b : Bus) : busRead b = none ↔ b.readAnswers = [] := by
  cases h : b.readAnswers <;> simp [busRead, h]

theorem busWrite_none (v : Byte) (b : Bus) : busWrite v b = none ↔ b.writeAnswers = [] := by
  cases h : b.writeAnswers <;> simp [busWrite, h]

theorem busReset_none (b : Bus) : busReset b = none ↔ b.resetAnswers = [] := by
  cases h : b.resetAnswers <;> simp [busReset, h]

theorem busRead_cons {b : Bus} {r : ReadAnswer} {rest : List ReadAnswer} (h : b.readAnswers = r :: rest) :
    busRead b = some (r, { b with readAnswers := rest, history := .read r :: b.history }) := by
  simp [busRead, h]

theorem busWrite_cons {b : Bus} {r : Ack} {rest : List Ack} (v : Byte) (h : b.writeAnswers = r :: rest) :
    busWrite v b = some (r, { b with writeAnswers := rest, history := .write v r :: b.history }) := by
  simp [busWrite, h]

theorem busReset_cons {b : Bus} {r : Ack} {rest : List Ack} (h : b.resetAnswers = r :: rest) :
    busReset b = some (r, { b with resetAnswers := rest, history := .reset r :: b.history }) := by
  simp [busReset, h]

end Sys2Proof.Machine
end

