-- ==== Sys2Proof/Laws/PerInstr.lean ====
section
/-! SUPPORT. Facts about every instruction as syntax, one lemma per constructor: the bytes of a well-formed
instruction are as many as the length of its opcode byte says (R62), and the opcode byte comes first (R60). -/

namespace Sys2Proof.Laws.EncodingLength

/-- The encoding is an opcode byte and operand bytes, as many as R62 says. -/
def Statement (i : Instr) : Prop :=
  wellFormed i = true → ∃ op rest, encode i = op :: rest ∧ (encode i).length = instrLength op

theorem len_of_family (f : BitVec 4) (n : RegIdx) (k : Nat) (h : ∀ n : RegIdx, instrLength (opcodeByte f n) = k) :
    k = instrLength (opcodeByte f n) := (h n).symm

theorem len_of_row (row : Byte → Instr) (h : ∀ op, wellFormed (row op) = true → instrLength op = 1) (op : Byte)
    (hw : wellFormed (row op) = true) : 1 = instrLength op := (h op hw).symm

theorem ldi (n : RegIdx) (imm : Byte) : Statement (.ldi n imm) :=
  fun _ => ⟨_, _, rfl, len_of_family 0x0 n 2 (by decide)⟩
theorem ld (n : RegIdx) (addr : Addr) : Statement (.ld n addr) :=
  fun _ => ⟨_, _, rfl, len_of_family 0x1 n 3 (by decide)⟩
theorem st (n : RegIdx) (addr : Addr) : Statement (.st n addr) :=
  fun _ => ⟨_, _, rfl, len_of_family 0x2 n 3 (by decide)⟩
theorem mov (n : RegIdx) : Statement (.mov n) :=
  fun _ => ⟨_, _, rfl, len_of_family 0x3 n 1 (by decide)⟩
theorem sav (n : RegIdx) : Statement (.sav n) :=
  fun _ => ⟨_, _, rfl, len_of_family 0x4 n 1 (by decide)⟩
theorem add (n : RegIdx) : Statement (.add n) :=
  fun _ => ⟨_, _, rfl, len_of_family 0x5 n 1 (by decide)⟩
theorem sub (n : RegIdx) : Statement (.sub n) :=
  fun _ => ⟨_, _, rfl, len_of_family 0x6 n 1 (by decide)⟩
theorem mul (n : RegIdx) : Statement (.mul n) :=
  fun _ => ⟨_, _, rfl, len_of_family 0x7 n 1 (by decide)⟩
theorem div (n : RegIdx) : Statement (.div n) :=
  fun _ => ⟨_, _, rfl, len_of_family 0x8 n 1 (by decide)⟩
theorem and (n : RegIdx) : Statement (.and n) :=
  fun _ => ⟨_, _, rfl, len_of_family 0x9 n 1 (by decide)⟩
theorem or (n : RegIdx) : Statement (.or n) :=
  fun _ => ⟨_, _, rfl, len_of_family 0xA n 1 (by decide)⟩
theorem inc : Statement .inc := fun _ => ⟨_, _, rfl, rfl⟩
theorem dec : Statement .dec := fun _ => ⟨_, _, rfl, rfl⟩
theorem shl : Statement .shl := fun _ => ⟨_, _, rfl, rfl⟩
theorem shr : Statement .shr := fun _ => ⟨_, _, rfl, rfl⟩
theorem neg : Statement .neg := fun _ => ⟨_, _, rfl, rfl⟩
theorem not : Statement .not := fun _ => ⟨_, _, rfl, rfl⟩
theorem skz : Statement .skz := fun _ => ⟨_, _, rfl, rfl⟩
theorem skp : Statement .skp := fun _ => ⟨_, _, rfl, rfl⟩
theorem skn : Statement .skn := fun _ => ⟨_, _, rfl, rfl⟩
theorem call (target : Addr) : Statement (.call target) := fun _ => ⟨_, _, rfl, rfl⟩
theorem ret : Statement .ret := fun _ => ⟨_, _, rfl, rfl⟩
theorem jmp (target : Addr) : Statement (.jmp target) := fun _ => ⟨_, _, rfl, rfl⟩
theorem busr : Statement .busr := fun _ => ⟨_, _, rfl, rfl⟩
theorem busw : Statement .busw := fun _ => ⟨_, _, rfl, rfl⟩
theorem busclr : Statement .busclr := fun _ => ⟨_, _, rfl, rfl⟩
theorem nop : Statement .nop := fun _ => ⟨_, _, rfl, rfl⟩
theorem halt : Statement .halt := fun _ => ⟨_, _, rfl, rfl⟩
theorem reserved (low : RegIdx) : Statement (.reserved low) :=
  fun _ => ⟨_, _, rfl, len_of_family 0xF low 1 (by decide)⟩
theorem undefB6 (op : Byte) : Statement (.undefB6 op) := fun h => ⟨_, _, rfl, len_of_row (.undefB6 ·) (by decide) op h⟩
theorem undefB8 (op : Byte) : Statement (.undefB8 op) := fun h => ⟨_, _, rfl, len_of_row (.undefB8 ·) (by decide) op h⟩
theorem undefC6 (op : Byte) : Statement (.undefC6 op) := fun h => ⟨_, _, rfl, len_of_row (.undefC6 ·) (by decide) op h⟩
theorem undefC8 (op : Byte) : Statement (.undefC8 op) := fun h => ⟨_, _, rfl, len_of_row (.undefC8 ·) (by decide) op h⟩
theorem undefD3 : Statement .undefD3 := fun _ => ⟨_, _, rfl, rfl⟩
theorem undefD4 (op : Byte) : Statement (.undefD4 op) := fun h => ⟨_, _, rfl, len_of_row (.undefD4 ·) (by decide) op h⟩
theorem undefD8 (op : Byte) : Statement (.undefD8 op) := fun h => ⟨_, _, rfl, len_of_row (.undefD8 ·) (by decide) op h⟩
theorem undefE2 (op : Byte) : Statement (.undefE2 op) := fun h => ⟨_, _, rfl, len_of_row (.undefE2 ·) (by decide) op h⟩
theorem undefE4 (op : Byte) : Statement (.undefE4 op) := fun h => ⟨_, _, rfl, len_of_row (.undefE4 ·) (by decide) op h⟩
theorem undefE8 (op : Byte) : Statement (.undefE8 op) := fun h => ⟨_, _, rfl, len_of_row (.undefE8 ·) (by decide) op h⟩

end Sys2Proof.Laws.EncodingLength
end

