-- ==== Sys2Proof/Laws/Step.lean ====
section
/-! SUPPORT. What one instruction can do, said once: `exec_next_cases`; and the small lemmas of the step. -/

namespace Sys2Proof.Machine

theorem engineRuns_iff (s : State) : engineRuns s = true ↔ Running s := by
  simp [engineRuns, Running]

theorem step_running {s : State} (h : Running s) : step s = exec (fetchInstr s) s := by
  simp [step, (engineRuns_iff s).mpr h]

theorem step_stopped {s : State} (h : ¬ Running s) : step s = .next s := by
  have : engineRuns s = false := by simpa [← engineRuns_iff] using h
  simp [step, this]

/-! ### Runs -/

@[simp] theorem runFor_zero (s : State) : runFor 0 s = .next s := rfl

/-- A run of `k + 1` steps is a step and a run of `k` steps. -/
theorem runFor_succ {s t : State} (h : step s = .next t) (k : Nat) : runFor (k + 1) s = runFor k t := by
  rw [runFor, h]

/-- `runFor` is the run of the host's interface. -/
theorem runFor_eq_run (k : Nat) (s : State) : runFor k s = Sys2Proof.core.run k s := by
  have next (M : Host.Core) (k : Nat) (s t : M.State) (h : M.step s = .next t) : M.run (k + 1) s = M.run k t := by
    rw [Host.Core.run, h]
  have fault (M : Host.Core) (k : Nat) (s : M.State) (r : M.Fault) (h : M.step s = .fault r) :
      M.run (k + 1) s = .fault r := by rw [Host.Core.run, h]
  have refused (M : Host.Core) (k : Nat) (s : M.State) (r : M.Refusal) (h : M.step s = .refused r) :
      M.run (k + 1) s = .refused r := by rw [Host.Core.run, h]
  induction k generalizing s with
  | zero => rfl
  | succ k ih =>
    rw [runFor]
    cases h : step s with
    | next t => exact (ih t).trans (next Sys2Proof.core k s t h).symm
    | fault r => exact (fault Sys2Proof.core k s r h).symm
    | refused r => exact (refused Sys2Proof.core k s r h).symm

/-- An induction over runs, packaged once: what holds at the start and is kept by every step holds at the end. -/
theorem runFor_induction {P : State → Prop} (keeps : ∀ s t, P s → step s = .next t → P t) :
    ∀ (k : Nat) (s t : State), P s → runFor k s = .next t → P t := by
  intro k
  induction k with
  | zero =>
    intro s t hs h
    injection h with h
    exact h ▸ hs
  | succ k ih =>
    intro s t hs h
    rw [runFor] at h
    split at h
    · exact ih _ t (keeps s _ hs ‹_›) h
    · exact absurd h (by simp)
    · exact absurd h (by simp)

/-- The ways in which an instruction that completes can change the state, before its flag recompute. -/
structure CompletesFrom (s u : State) : Prop where
  fault : u.fault = s.fault
  policy : u.stackFullPolicy = s.stackFullPolicy
  flag : u.flag = s.flag
  status : u.status = s.status ∨ u.status = .halted
  sp : u.sp = s.sp ∨ u.sp = s.sp + 2 ∨ u.sp = s.sp - 2
  mem : u.mem = s.mem ∨ (∃ a b, u.mem = s.mem.write a b) ∨ u.mem = (pushPc s).mem

/-- Whatever the instruction, it completes, or it raises an error (a StackOverflow only on a full stack) with at most
one bus transaction done, or it waits for the bus and changes nothing. -/
theorem exec_next_cases {i : Instr} {s t : State} (h : exec i s = .next t) :
    (∃ u, CompletesFrom s u ∧ t = { u with flag := classify u.acc }) ∨
    (∃ e b, (e = .stackOverflow → stackFull s = true) ∧ t = { setBus b s with pc := s.pc + 1, fault := some e }) ∨
    t = s := by
  have done : ∀ {u}, complete u = .next t → CompletesFrom s u →
      (∃ u, CompletesFrom s u ∧ t = { u with flag := classify u.acc }) ∨
      (∃ e b, (e = .stackOverflow → stackFull s = true) ∧ t = { setBus b s with pc := s.pc + 1, fault := some e }) ∨
      t = s := fun hc hu => .inl ⟨_, hu, complete_next.mp hc⟩
  have raised : ∀ e b, (e = .stackOverflow → stackFull s = true) → raise e (setBus b s) = .next t →
      (∃ u, CompletesFrom s u ∧ t = { u with flag := classify u.acc }) ∨
      (∃ e b, (e = .stackOverflow → stackFull s = true) ∧ t = { setBus b s with pc := s.pc + 1, fault := some e }) ∨
      t = s := fun e b he hr => .inr (.inl ⟨e, b, he, raise_next.mp hr⟩)
  cases i with
  | ldi n imm => exact done h ⟨rfl, rfl, rfl, .inl rfl, .inl rfl, .inl rfl⟩
  | ld n addr => exact done h ⟨rfl, rfl, rfl, .inl rfl, .inl rfl, .inl rfl⟩
  | st n addr => exact done h ⟨rfl, rfl, rfl, .inl rfl, .inl rfl, .inr (.inl ⟨_, _, rfl⟩)⟩
  | mov n => exact done h ⟨rfl, rfl, rfl, .inl rfl, .inl rfl, .inl rfl⟩
  | sav n => exact done h ⟨rfl, rfl, rfl, .inl rfl, .inl rfl, .inl rfl⟩
  | add n => exact done h ⟨rfl, rfl, rfl, .inl rfl, .inl rfl, .inl rfl⟩
  | sub n => exact done h ⟨rfl, rfl, rfl, .inl rfl, .inl rfl, .inl rfl⟩
  | mul n => exact done h ⟨rfl, rfl, rfl, .inl rfl, .inl rfl, .inl rfl⟩
  | div n =>
    simp only [exec, execDiv] at h
    split at h
    · exact raised .divideByZero s.bus nofun h
    · exact done h ⟨rfl, rfl, rfl, .inl rfl, .inl rfl, .inl rfl⟩
  | and n => exact done h ⟨rfl, rfl, rfl, .inl rfl, .inl rfl, .inl rfl⟩
  | or n => exact done h ⟨rfl, rfl, rfl, .inl rfl, .inl rfl, .inl rfl⟩
  | inc => exact done h ⟨rfl, rfl, rfl, .inl rfl, .inl rfl, .inl rfl⟩
  | dec => exact done h ⟨rfl, rfl, rfl, .inl rfl, .inl rfl, .inl rfl⟩
  | shl => exact done h ⟨rfl, rfl, rfl, .inl rfl, .inl rfl, .inl rfl⟩
  | shr => exact done h ⟨rfl, rfl, rfl, .inl rfl, .inl rfl, .inl rfl⟩
  | neg => exact done h ⟨rfl, rfl, rfl, .inl rfl, .inl rfl, .inl rfl⟩
  | not => exact done h ⟨rfl, rfl, rfl, .inl rfl, .inl rfl, .inl rfl⟩
  | skz => exact done h ⟨rfl, rfl, rfl, .inl rfl, .inl rfl, .inl rfl⟩
  | skp => exact done h ⟨rfl, rfl, rfl, .inl rfl, .inl rfl, .inl rfl⟩
  | skn => exact done h ⟨rfl, rfl, rfl, .inl rfl, .inl rfl, .inl rfl⟩
  | call target =>
    simp only [exec, execCall] at h
    split at h
    · exact raised .stackOverflow s.bus (fun _ => ‹_›) h
    · exact done h ⟨rfl, rfl, rfl, .inl rfl, .inr (.inl rfl), .inr (.inr rfl)⟩
  | ret =>
    simp only [exec, execRet] at h
    split at h
    · exact raised .stackUnderflow s.bus nofun h
    · exact done h ⟨rfl, rfl, rfl, .inl rfl, .inr (.inr rfl), .inl rfl⟩
  | jmp target => exact done h ⟨rfl, rfl, rfl, .inl rfl, .inl rfl, .inl rfl⟩
  | busr =>
    simp only [exec, execBusr] at h
    split at h
    · exact .inr (.inr (waitForBus_next.mp h))
    · exact raised .busFailure _ nofun h
    · exact done h ⟨rfl, rfl, rfl, .inl rfl, .inl rfl, .inl rfl⟩
  | busw =>
    simp only [exec, execBusw] at h
    split at h
    · exact .inr (.inr (waitForBus_next.mp h))
    · exact raised .busFailure _ nofun h
    · exact done h ⟨rfl, rfl, rfl, .inl rfl, .inl rfl, .inl rfl⟩
  | busclr =>
    simp only [exec, execBusclr] at h
    split at h
    · exact .inr (.inr (waitForBus_next.mp h))
    · exact raised .busFailure _ nofun h
    · exact done h ⟨rfl, rfl, rfl, .inl rfl, .inl rfl, .inl rfl⟩
  | nop => exact done h ⟨rfl, rfl, rfl, .inl rfl, .inl rfl, .inl rfl⟩
  | halt => exact done h ⟨rfl, rfl, rfl, .inr rfl, .inl rfl, .inl rfl⟩
  | reserved low => exact raised .reservedOpcode s.bus nofun h
  | undefB6 op => exact raised .invalidOpcode s.bus nofun h
  | undefB8 op => exact raised .invalidOpcode s.bus nofun h
  | undefC6 op => exact raised .invalidOpcode s.bus nofun h
  | undefC8 op => exact raised .invalidOpcode s.bus nofun h
  | undefD3 => exact raised .invalidOpcode s.bus nofun h
  | undefD4 op => exact raised .invalidOpcode s.bus nofun h
  | undefD8 op => exact raised .invalidOpcode s.bus nofun h
  | undefE2 op => exact raised .invalidOpcode s.bus nofun h
  | undefE4 op => exact raised .invalidOpcode s.bus nofun h
  | undefE8 op => exact raised .invalidOpcode s.bus nofun h

/-- Reading the bytes that stand in memory from an address on. -/
theorem holdsAt_cons (m : Memory) (a : Addr) (b : Byte) (rest : List Byte) :
    HoldsAt m a (b :: rest) ↔ m.read a = b ∧ HoldsAt m (a + 1) rest := Iff.rfl

/-- The fetch reads the instruction whose bytes stand at PC. -/
theorem fetchInstr_of_decode {s : State} {bytes : List Byte} {i : Instr} (hold : HoldsAt s.mem s.pc bytes)
    (hd : decode bytes = .ok (i, [])) : fetchInstr s = i := by
  have e2 : s.pc + 1 + 1 = s.pc + 2 := by rw [BitVec.add_assoc]; rfl
  unfold fetchInstr readMem
  match bytes, hold, hd with
  | op :: bs, ⟨h0, h1⟩, hd =>
    simp only [decode] at hd
    split at hd
    · exact absurd hd (by simp)
    · rename_i hl
      simp only [Except.ok.injEq, Prod.mk.injEq] at hd
      obtain ⟨rfl, -⟩ := hd
      rw [h0]
      match bs, h1, hl with
      | [], _, hl =>
        refine decodeOpcode_one ?_ ..
        rcases instrLength_mem op with h | h | h <;> simp [h] at hl ⊢
      | [b1], ⟨h1, _⟩, hl =>
        rw [h1]
        refine decodeOpcode_two ?_ ..
        rcases instrLength_mem op with h | h | h <;> simp [h] at hl ⊢
      | b1 :: b2 :: _, ⟨h1, h2, _⟩, _ =>
        rw [e2] at h2
        rw [h1, h2]
        rfl

end Sys2Proof.Machine
end

