-- ==== Sys2Proof/Tests/Slice0.lean ====
section
/-! SUPPORT. The model's own tests. Expected values come from `spec/95_test_vectors.md` (the vector's number stands
before each test), from the examples of the instruction rules, or from the encoding tables; none is the model's own
answer. At the end, for every statement with hypotheses, a state and operands that meet them. -/

namespace Sys2Proof.Tests

open Sys2Proof Sys2Proof.Machine

/-! ### Well-formedness: each check refuses an ill-formed term -/

theorem test_smoke_undefB6 : wellFormed (.undefB6 0xB5) = false := by decide
theorem test_smoke_undefB8 : wellFormed (.undefB8 0xB7) = false := by decide
theorem test_smoke_undefC6 : wellFormed (.undefC6 0xC5) = false := by decide
theorem test_smoke_undefC8 : wellFormed (.undefC8 0xD0) = false := by decide
theorem test_smoke_undefD4 : wellFormed (.undefD4 0xD3) = false := by decide
theorem test_smoke_undefD8 : wellFormed (.undefD8 0xE0) = false := by decide
theorem test_smoke_undefE2 : wellFormed (.undefE2 0xE1) = false := by decide
theorem test_smoke_undefE4 : wellFormed (.undefE4 0xE8) = false := by decide
theorem test_smoke_undefE8 : wellFormed (.undefE8 0xF0) = false := by decide

/-! ### Decoding: for every constructor, bytes written out from `30_encoding.md` R61 and R64 -/

theorem test_decode_ldi : decode [0x0F, 0xFF] = .ok (.ldi 15 0xFF, []) := by decide
theorem test_decode_ld : decode [0x13, 0x12, 0x34] = .ok (.ld 3 0x1234, []) := by decide
theorem test_decode_st : decode [0x21, 0x10, 0x00] = .ok (.st 1 0x1000, []) := by decide
theorem test_decode_mov : decode [0x33] = .ok (.mov 3, []) := by decide
theorem test_decode_sav : decode [0x49] = .ok (.sav 9, []) := by decide
theorem test_decode_add : decode [0x51] = .ok (.add 1, []) := by decide
theorem test_decode_sub : decode [0x62] = .ok (.sub 2, []) := by decide
theorem test_decode_mul : decode [0x74] = .ok (.mul 4, []) := by decide
theorem test_decode_div : decode [0x85] = .ok (.div 5, []) := by decide
theorem test_decode_and : decode [0x96] = .ok (.and 6, []) := by decide
theorem test_decode_or : decode [0xAF] = .ok (.or 15, []) := by decide
theorem test_decode_inc : decode [0xB0] = .ok (.inc, []) := by decide
theorem test_decode_dec : decode [0xB1] = .ok (.dec, []) := by decide
theorem test_decode_shl : decode [0xB2] = .ok (.shl, []) := by decide
theorem test_decode_shr : decode [0xB3] = .ok (.shr, []) := by decide
theorem test_decode_neg : decode [0xB4] = .ok (.neg, []) := by decide
theorem test_decode_not : decode [0xB5] = .ok (.not, []) := by decide
theorem test_decode_skz : decode [0xC0] = .ok (.skz, []) := by decide
theorem test_decode_skp : decode [0xC1] = .ok (.skp, []) := by decide
theorem test_decode_skn : decode [0xC2] = .ok (.skn, []) := by decide
theorem test_decode_call : decode [0xC3, 0x08, 0x0A] = .ok (.call 0x080A, []) := by decide
theorem test_decode_ret : decode [0xC4] = .ok (.ret, []) := by decide
theorem test_decode_jmp : decode [0xC5, 0x08, 0x03] = .ok (.jmp 0x0803, []) := by decide
theorem test_decode_busr : decode [0xD0] = .ok (.busr, []) := by decide
theorem test_decode_busw : decode [0xD1] = .ok (.busw, []) := by decide
theorem test_decode_busclr : decode [0xD2] = .ok (.busclr, []) := by decide
theorem test_decode_nop : decode [0xE0] = .ok (.nop, []) := by decide
theorem test_decode_halt : decode [0xE1] = .ok (.halt, []) := by decide
theorem test_decode_reserved : decode [0xFF] = .ok (.reserved 15, []) := by decide
theorem test_decode_undefB6 : decode [0xB7] = .ok (.undefB6 0xB7, []) := by decide
theorem test_decode_undefB8 : decode [0xBF] = .ok (.undefB8 0xBF, []) := by decide
theorem test_decode_undefC6 : decode [0xC6] = .ok (.undefC6 0xC6, []) := by decide
theorem test_decode_undefC8 : decode [0xC8] = .ok (.undefC8 0xC8, []) := by decide
theorem test_decode_undefD3 : decode [0xD3] = .ok (.undefD3, []) := by decide
theorem test_decode_undefD4 : decode [0xD7] = .ok (.undefD4 0xD7, []) := by decide
theorem test_decode_undefD8 : decode [0xD8] = .ok (.undefD8 0xD8, []) := by decide
theorem test_decode_undefE2 : decode [0xE2] = .ok (.undefE2 0xE2, []) := by decide
theorem test_decode_undefE4 : decode [0xE4] = .ok (.undefE4 0xE4, []) := by decide
theorem test_decode_undefE8 : decode [0xEF] = .ok (.undefE8 0xEF, []) := by decide
theorem test_decode_needs_operand : decode [0xC3, 0x08] = .error .missingOperand := by decide
theorem test_table_word_second_byte_high : decodeTableWord 24 0x341213 = some (.ld 3 0x1234) := by decide
theorem test_table_word_opcode_only : decodeTableWord 8 0xC5 = some (.jmp 0x0000) := by decide

/-! ### One step on a small state -/

/-- Reset with bytes placed at an address, where PC then stands. -/
def at_ (a : Addr) (bytes : List Byte) : State := placeAtPc bytes (setPc a State.reset)

/-- ACC with the FLAG that agrees with it. -/
def withAcc (v : Byte) (s : State) : State := { s with acc := v, flag := classify v }

/-- A property of the state after one step. -/
def after (s : State) (p : State → Bool) : Bool :=
  match step s with
  | .next t => p t
  | .fault _ => false
  | .refused _ => false

/-- The step raises the error at the instruction at `a`: only PC and FAULT change (R145). -/
def raisesAt (a : Addr) (e : ExecError) (s : State) : Bool :=
  after s fun t => decide ({ t with bus := s.bus } = { s with pc := a + 1, fault := some e })

-- E-1, E-2, E-3, E-4, E-5, E-6
theorem test_flag_reflects_acc : after (at_ 0x800 [0x00, 0x05]) (fun t => readReg t 0 == 5 && t.pc == 0x802 && t.flag == .zero) := by decide
theorem test_nop_repairs_flag : after (setAcc 0x80 (at_ 0x800 [0xE0])) (fun t => t.flag == .negative) := by decide
theorem test_halted_takes_no_step : after (setStatus .halted (at_ 0x800 [0xE0])) (fun t => t.pc == 0x800) := by decide
theorem test_faulted_takes_no_step : after ({ at_ 0x800 [0xE0] with fault := some .busFailure }) (fun t => t.pc == 0x800) := by decide
theorem test_suspended_takes_no_step : after (setStatus .suspended (at_ 0x800 [0xE0])) (fun t => t.pc == 0x800) := by decide
theorem test_pc_wraps : after (at_ 0xFFFF [0xE0]) (fun t => t.pc == 0x0000) := by decide
-- LS-1, LS-2, LS-3, LS-4, LS-6, LS-7, LS-9
theorem test_ldi : after (at_ 0x800 [0x0F, 0xFF]) (fun t => readReg t 15 == 0xFF && t.pc == 0x802) := by decide
theorem test_ldi_keeps_flag : after (withAcc 0x80 (at_ 0x800 [0x03, 0x00])) (fun t => readReg t 3 == 0 && t.flag == .negative) := by decide
theorem test_ld : after (writeMem 0x1234 0x9C (at_ 0x800 [0x13, 0x12, 0x34])) (fun t => readReg t 3 == 0x9C && t.pc == 0x803) := by decide
theorem test_ld_operand_wraps : after (writeMem 0x0010 0x77 (at_ 0xFFFE [0x14, 0x00, 0x10])) (fun t => readReg t 4 == 0x77 && t.pc == 0x0001) := by decide
theorem test_st : after (writeReg 1 0x54 (at_ 0x800 [0x21, 0x10, 0x00])) (fun t => readMem t 0x1000 == 0x54 && t.pc == 0x803) := by decide
theorem test_st_stack_region : after (writeReg 5 0xAB (at_ 0x800 [0x25, 0x00, 0xFF])) (fun t => readMem t 0x00FF == 0xAB) := by decide
-- A-1, A-2, A-5, A-6, A-8, A-9, A-12, A-14, A-16, A-17, A-20, A-21, A-23
theorem test_mov : after (writeReg 3 0x80 (at_ 0x800 [0x33])) (fun t => t.acc == 0x80 && t.flag == .negative) := by decide
theorem test_sav : after (withAcc 0x7F (at_ 0x800 [0x49])) (fun t => readReg t 9 == 0x7F && t.flag == .positive) := by decide
theorem test_add_wraps : after (withAcc 0xFF (writeReg 1 1 (at_ 0x800 [0x51]))) (fun t => t.acc == 0 && t.flag == .zero) := by decide
theorem test_add_sign : after (withAcc 0x7F (writeReg 1 1 (at_ 0x800 [0x51]))) (fun t => t.acc == 0x80 && t.flag == .negative) := by decide
theorem test_sub : after (withAcc 0x03 (writeReg 2 5 (at_ 0x800 [0x62]))) (fun t => t.acc == 0xFE && t.flag == .negative) := by decide
theorem test_sub_wraps : after (withAcc 0x00 (writeReg 2 1 (at_ 0x800 [0x62]))) (fun t => t.acc == 0xFF) := by decide
theorem test_mul : after (withAcc 0x0C (writeReg 4 0x15 (at_ 0x800 [0x74]))) (fun t => t.acc == 0xFC && t.flag == .negative) := by decide
theorem test_mul_truncates : after (withAcc 0xFF (writeReg 4 0xFF (at_ 0x800 [0x74]))) (fun t => t.acc == 0x01) := by decide
theorem test_div : after (withAcc 0xC8 (writeReg 5 7 (at_ 0x800 [0x85]))) (fun t => t.acc == 0x1C && t.flag == .positive) := by decide
theorem test_div_by_zero : raisesAt 0x800 .divideByZero (withAcc 0x07 (at_ 0x800 [0x85])) := by decide
theorem test_and : after (withAcc 0xF0 (writeReg 6 0x3C (at_ 0x800 [0x96]))) (fun t => t.acc == 0x30 && t.flag == .positive) := by decide
theorem test_or : after (withAcc 0x0F (writeReg 15 0x80 (at_ 0x800 [0xAF]))) (fun t => t.acc == 0x8F && t.flag == .negative) := by decide
-- U-1, U-4, U-6, U-7, U-10, U-11, U-12, U-14, U-16, U-19
theorem test_inc_wraps : after (withAcc 0xFF (at_ 0x800 [0xB0])) (fun t => t.acc == 0 && t.flag == .zero) := by decide
theorem test_dec : after (withAcc 0x80 (at_ 0x800 [0xB1])) (fun t => t.acc == 0x7F && t.flag == .positive) := by decide
theorem test_shl : after (withAcc 0x2A (at_ 0x800 [0xB2])) (fun t => t.acc == 0x54) := by decide
theorem test_shl_drops_bit7 : after (withAcc 0x80 (at_ 0x800 [0xB2])) (fun t => t.acc == 0 && t.flag == .zero) := by decide
theorem test_shr_is_logical : after (withAcc 0x80 (at_ 0x800 [0xB3])) (fun t => t.acc == 0x40 && t.flag == .positive) := by decide
theorem test_shr_drops_bit0 : after (withAcc 0x01 (at_ 0x800 [0xB3])) (fun t => t.acc == 0 && t.flag == .zero) := by decide
theorem test_neg : after (withAcc 0x05 (at_ 0x800 [0xB4])) (fun t => t.acc == 0xFB && t.flag == .negative) := by decide
theorem test_neg_most_negative : after (withAcc 0x80 (at_ 0x800 [0xB4])) (fun t => t.acc == 0x80) := by decide
theorem test_not : after (withAcc 0x0F (at_ 0x800 [0xB5])) (fun t => t.acc == 0xF0 && t.flag == .negative) := by decide
theorem test_undef_unary : raisesAt 0x800 .invalidOpcode (withAcc 0x0F (at_ 0x800 [0xB6])) := by decide
-- C-1, C-2, C-3, C-4, C-6, C-8
theorem test_skz_taken : after (at_ 0x900 [0xC0]) (fun t => t.pc == 0x902) := by decide
theorem test_skz_not_taken : after (withAcc 1 (at_ 0x900 [0xC0])) (fun t => t.pc == 0x901) := by decide
theorem test_skp_taken : after (withAcc 0x7F (at_ 0x900 [0xC1])) (fun t => t.pc == 0x902) := by decide
theorem test_skp_not_taken : after (withAcc 0x80 (at_ 0x900 [0xC1])) (fun t => t.pc == 0x901) := by decide
theorem test_skn_taken_wraps : after (withAcc 0x80 (at_ 0xFFFE [0xC2])) (fun t => t.pc == 0x0000) := by decide
theorem test_skn_not_taken : after (at_ 0x900 [0xC2]) (fun t => t.pc == 0x901) := by decide
-- C-11 (both policies: C-12), C-22
theorem test_call_wraps_sp : after (setSp 0xFE (at_ 0x900 [0xC3, 0x0A, 0x00])) (fun t => readMem t 0xFE == 0x09 && readMem t 0xFF == 0x01 && t.sp == 0 && t.pc == 0x0A00) := by decide
theorem test_call_reads_after_push : after (at_ 0x0000 [0xC3, 0x12, 0x34]) (fun t => t.pc == 0x0134 && t.sp == 2) := by decide
theorem test_call_policy_fault : raisesAt 0x900 .stackOverflow ({ setSp 0xFE (at_ 0x900 [0xC3, 0x0A, 0x00]) with stackFullPolicy := .fault }) := by decide
-- C-14, C-16, C-15, C-20, C-23
theorem test_ret : after (writeMem 1 0x03 (writeMem 0 0x08 (setSp 2 (at_ 0x900 [0xC4])))) (fun t => t.sp == 0 && t.pc == 0x0805) := by decide
theorem test_ret_wraps : after (writeMem 3 0xFE (writeMem 2 0xFF (setSp 4 (at_ 0x900 [0xC4])))) (fun t => t.sp == 2 && t.pc == 0x0000) := by decide
theorem test_ret_empty : raisesAt 0x900 .stackUnderflow (at_ 0x900 [0xC4]) := by decide
theorem test_jmp_operand_wraps : after (at_ 0xFFFE [0xC5, 0x12, 0x34]) (fun t => t.pc == 0x1234 && t.sp == 0) := by decide
theorem test_undef_control : raisesAt 0x800 .invalidOpcode (at_ 0x800 [0xC6, 0x12, 0x34]) := by decide
-- B-3, B-4, B-5, B-6, B-7, B-8, B-9, B-10
theorem test_busr : after (withAcc 5 (withAnswers [.ok 0xC3] [] [] (at_ 0x800 [0xD0]))) (fun t => t.acc == 0xC3 && t.flag == .negative && t.pc == 0x801) := by decide
theorem test_busr_fails : raisesAt 0x800 .busFailure (withAcc 5 (withAnswers [.fail] [] [] (at_ 0x800 [0xD0]))) := by decide
theorem test_busw : after (withAcc 0x41 (withAnswers [] [.ok] [] (at_ 0x800 [0xD1]))) (fun t => t.bus.history == [.write 0x41 .ok] && t.acc == 0x41 && t.pc == 0x801) := by decide
theorem test_busw_fails : raisesAt 0x800 .busFailure (withAcc 0x41 (withAnswers [] [.fail] [] (at_ 0x800 [0xD1]))) := by decide
theorem test_busclr : after (withAnswers [] [] [.ok] (at_ 0x800 [0xD2])) (fun t => t.bus.history == [.reset .ok] && t.pc == 0x801) := by decide
theorem test_busclr_fails : raisesAt 0x800 .busFailure (withAnswers [] [] [.fail] (at_ 0x800 [0xD2])) := by decide
theorem test_bus_no_answer : after (at_ 0x800 [0xD0]) (fun t => decide (t = at_ 0x800 [0xD0])) := by decide
theorem test_undef_bus : raisesAt 0x800 .invalidOpcode (at_ 0x800 [0xDF]) := by decide
-- S-1, S-2, S-3, S-5
theorem test_nop : after (at_ 0x809 [0xE0]) (fun t => t.pc == 0x80A) := by decide
theorem test_halt : after (at_ 0x807 [0xE1]) (fun t => t.status == .halted && t.pc == 0x808 && t.fault == none) := by decide
theorem test_reserved : raisesAt 0x800 .reservedOpcode (at_ 0x800 [0xF0]) := by decide
theorem test_undef_system : raisesAt 0x800 .invalidOpcode (at_ 0x800 [0xE2]) := by decide
-- R-1, R-4
theorem test_reset_empty_image : hostReset [] State.reset = .loaded State.reset := by decide
theorem test_reset_after_halt : hostReset [0xE1] (setStatus .halted (writeMem 0x0100 0x55 State.reset)) = .loaded (at_ 0x800 [0xE1]) := by decide
-- R35, R40
theorem test_observe_codes : (observe { State.reset with fault := some .divideByZero, flag := .negative }).map (fun o => (o.flag, o.status, o.fault)) = some (2, 0, 6) := by decide

/-! ### Witnesses: for each statement with hypotheses, a state and operands that meet all of them -/

/-- The engine runs and these bytes stand at PC: what `StepsTo` asks of a state. -/
def ready (s : State) (bytes : List Byte) : Prop := Running s ∧ HoldsAt s.mem s.pc bytes

/-- The state after `i`. -/
def next (i : Instr) (s : State) : State :=
  match exec i s with
  | .next t => t
  | .fault _ => s
  | .refused _ => s

-- Encoding
theorem witness_EncodeThenDecodeIsIdentity :
    [Instr.ldi 15 0xFF, .call 0xFFFF, .undefB6 0xB6, .undefB6 0xB7, .undefB8 0xB8, .undefB8 0xBF, .undefC6 0xC7,
      .undefC8 0xCF, .undefD4 0xD4, .undefD8 0xDF, .undefE2 0xE3, .undefE4 0xE7, .undefE8 0xEF].all wellFormed = true := by
  decide
theorem witness_DecodedBytesReencode : decode [0x0F, 0xFF, 0xE1] = .ok (.ldi 15 0xFF, [0xE1]) := by decide
theorem witness_OpcodeByteFixesLength :
    encode (.ldi 15 0xFF) = 0x0F :: [0xFF] ∧ encode (.ld 0 0x1234) = 0x10 :: [0x12, 0x34] ∧
      encode (.st 15 0x1234) = 0x2F :: [0x12, 0x34] ∧ encode (.mov 0) = 0x30 :: [] ∧
      encode (.call 0x1234) = 0xC3 :: [0x12, 0x34] ∧ encode .ret = 0xC4 :: [] ∧
      encode (.jmp 0x1234) = 0xC5 :: [0x12, 0x34] ∧ encode (.reserved 15) = 0xFF :: [] := by decide

-- The step
theorem witness_StepRunsTheDecodedInstruction :
    wellFormed (.ld 4 0x0010) = true ∧ ready (at_ 0xFFFE [0x14, 0x00, 0x10]) (encode (.ld 4 0x0010)) :=
  ⟨rfl, ⟨rfl, rfl⟩, rfl, rfl, rfl, trivial⟩
theorem witness_EveryByteStringAtPcRuns : Running State.reset := ⟨rfl, rfl⟩
theorem witness_PlacedWordRunsNext : Running State.reset ∧ decodeTableWord 24 0x3412C3 = some (.call 0x1234) :=
  ⟨⟨rfl, rfl⟩, by decide⟩
theorem witness_StoppedEngineNeverStepsAgain :
    (setStatus .halted State.reset).status ≠ .running ∧ (setStatus .suspended State.reset).status ≠ .running ∧
      (next .ret State.reset).fault ≠ none := by decide

-- The bytes that `StepsTo` asks for, for every form, some of them across the top of memory
theorem witness_ldi_ready : ready (at_ 0xFFFF [0x0F, 0xFF]) [0x0#4 ++ 15#4, 0xFF] := ⟨⟨rfl, rfl⟩, rfl, rfl, trivial⟩
theorem witness_ld_ready : ready (at_ 0x800 [0x13, 0x12, 0x34]) [0x1#4 ++ 3#4, 0x12, 0x34] :=
  ⟨⟨rfl, rfl⟩, rfl, rfl, rfl, trivial⟩
theorem witness_st_ready : ready (at_ 0xFFFF [0x21, 0x10, 0x00]) [0x2#4 ++ 1#4, 0x10, 0x00] :=
  ⟨⟨rfl, rfl⟩, rfl, rfl, rfl, trivial⟩
theorem witness_register_forms_ready :
    ready (at_ 0x800 [0x33]) [0x3#4 ++ 3#4] ∧ ready (at_ 0x800 [0x49]) [0x4#4 ++ 9#4] ∧
      ready (at_ 0x800 [0x51]) [0x5#4 ++ 1#4] ∧ ready (at_ 0x800 [0x62]) [0x6#4 ++ 2#4] ∧
      ready (at_ 0x800 [0x74]) [0x7#4 ++ 4#4] ∧ ready (at_ 0x800 [0x96]) [0x9#4 ++ 6#4] ∧
      ready (at_ 0xFFFF [0xAF]) [0xA#4 ++ 15#4] := by
  refine ⟨?_, ?_, ?_, ?_, ?_, ?_, ?_⟩ <;> exact ⟨⟨rfl, rfl⟩, rfl, trivial⟩
theorem witness_unary_ready :
    ready (at_ 0x800 [0xB0]) [0xB0] ∧ ready (at_ 0x800 [0xB1]) [0xB1] ∧ ready (at_ 0x800 [0xB2]) [0xB2] ∧
      ready (at_ 0x800 [0xB3]) [0xB3] ∧ ready (at_ 0x800 [0xB4]) [0xB4] ∧ ready (at_ 0xFFFF [0xB5]) [0xB5] := by
  refine ⟨?_, ?_, ?_, ?_, ?_, ?_⟩ <;> exact ⟨⟨rfl, rfl⟩, rfl, trivial⟩
theorem witness_JmpGoesToItsTarget : ready (at_ 0xFFFE [0xC5, 0x12, 0x34]) [0xC5, 0x12, 0x34] :=
  ⟨⟨rfl, rfl⟩, rfl, rfl, rfl, trivial⟩
theorem witness_NopAndHalt : ready (at_ 0xFFFF [0xE0]) [0xE0] ∧ ready (at_ 0x800 [0xE1]) [0xE1] :=
  ⟨⟨⟨rfl, rfl⟩, rfl, trivial⟩, ⟨⟨rfl, rfl⟩, rfl, trivial⟩⟩
theorem witness_ReservedFamilyRaises :
    ready (at_ 0x800 [0xF0]) [0xF#4 ++ 0#4] ∧ ready (at_ 0xFFFF [0xFF]) [0xF#4 ++ 15#4] :=
  ⟨⟨⟨rfl, rfl⟩, rfl, trivial⟩, ⟨⟨rfl, rfl⟩, rfl, trivial⟩⟩

-- Arithmetic
theorem witness_AddSubMulAgreeWithSignedArithmetic :
    let s := withAcc 0x80 (writeReg 1 0xFF State.reset)
    exec (.add 1) s = .next (next (.add 1) s) ∧ exec (.sub 1) s = .next (next (.sub 1) s) ∧
      exec (.mul 1) s = .next (next (.mul 1) s) := ⟨rfl, rfl, rfl⟩
theorem witness_DivGivesTheUnsignedQuotient :
    let s := withAcc 0xFF (writeReg 5 0x01 (at_ 0x800 [0x85]))
    readReg s 5 ≠ 0 ∧ ready s [0x8#4 ++ 5#4] := ⟨by decide, ⟨rfl, rfl⟩, rfl, trivial⟩
theorem witness_DivByZeroRaises :
    let s := withAcc 0xFF (at_ 0x800 [0x85])
    readReg s 5 = 0 ∧ ready s [0x8#4 ++ 5#4] := ⟨by decide, ⟨rfl, rfl⟩, rfl, trivial⟩

-- Control transfer
theorem witness_SkipsTestTheFlag :
    (∀ v ∈ [0x00, 0x01, 0x7F, 0x80, 0xFF], (withAcc v State.reset).flag = classify (withAcc v State.reset).acc) ∧
      ready (withAcc 0x00 (at_ 0xFFFE [0xC0])) [0xC0] ∧ ready (withAcc 0x7F (at_ 0xFFFF [0xC1])) [0xC1] ∧
      ready (withAcc 0x80 (at_ 0xFFFE [0xC2])) [0xC2] :=
  ⟨fun _ _ => rfl, ⟨⟨rfl, rfl⟩, rfl, trivial⟩, ⟨⟨rfl, rfl⟩, rfl, trivial⟩, ⟨⟨rfl, rfl⟩, rfl, trivial⟩⟩
theorem witness_CallPushesAndJumps :
    let s := setSp 0xFE (at_ 0x900 [0xC3, 0x0A, 0x00])
    s.sp ≠ 0xFF ∧ s.stackFullPolicy = .wrap ∧ ready s [0xC3, 0x0A, 0x00] ∧ HoldsAt s.mem (s.pc + 1) [0x0A, 0x00] ∧
      ∀ a, a = s.pc + 1 ∨ a = s.pc + 2 → a ≠ stackAddr s.sp ∧ a ≠ stackAddr (s.sp + 1) :=
  ⟨by decide, rfl, ⟨⟨rfl, rfl⟩, rfl, rfl, rfl, trivial⟩, ⟨rfl, rfl, trivial⟩, by rintro a (rfl | rfl) <;> decide⟩
theorem witness_CallPushesAndJumps_policy_fault :
    let s : State := { setSp 0xFC (at_ 0x900 [0xC3, 0x0A, 0x00]) with stackFullPolicy := .fault }
    s.sp ≠ 0xFF ∧ (s.sp = 0xFE → s.stackFullPolicy = .wrap) ∧ ready s [0xC3, 0x0A, 0x00] :=
  ⟨by decide, by decide, ⟨rfl, rfl⟩, rfl, rfl, rfl, trivial⟩
theorem witness_CallPushesAndJumps_overlap :
    let s := at_ 0x0000 [0xC3, 0x12, 0x34]
    s.sp ≠ 0xFF ∧ s.sp ≠ 0xFE ∧ HoldsAt s.mem (s.pc + 1) [0x12, 0x34] ∧ s.pc + 1 = stackAddr (s.sp + 1) :=
  ⟨by decide, by decide, ⟨rfl, rfl, trivial⟩, by decide⟩
theorem witness_CallOnAFullStackRaises :
    (setSp 0xFF (at_ 0x900 [0xC3, 0x0A, 0x00])).sp = 0xFF ∧
      ready (setSp 0xFF (at_ 0x900 [0xC3, 0x0A, 0x00])) [0xC3, 0x0A, 0x00] ∧
      let s : State := { setSp 0xFE (at_ 0x900 [0xC3, 0x0A, 0x00]) with stackFullPolicy := .fault }
      s.sp = 0xFE ∧ s.stackFullPolicy = .fault ∧ ready s [0xC3, 0x0A, 0x00] :=
  ⟨rfl, ⟨⟨rfl, rfl⟩, rfl, rfl, rfl, trivial⟩, rfl, rfl, ⟨rfl, rfl⟩, rfl, rfl, rfl, trivial⟩
theorem witness_RetPopsAndSkipsTheOperand :
    (∀ v ∈ [0x01, 0x02, 0xFF], (setSp v (at_ 0x900 [0xC4])).sp ≠ 0) ∧ ready (setSp 0x02 (at_ 0x900 [0xC4])) [0xC4] :=
  ⟨by decide, ⟨rfl, rfl⟩, rfl, trivial⟩
theorem witness_RetOnAnEmptyStackRaises : (at_ 0x900 [0xC4]).sp = 0 ∧ ready (at_ 0x900 [0xC4]) [0xC4] :=
  ⟨rfl, ⟨rfl, rfl⟩, rfl, trivial⟩
/-- The state after the CALL is itself a `u` as the statement asks for. -/
theorem witness_CallThenRetResumesAfterTheCall :
    (let s := setSp 0xFC (at_ 0x900 [0xC3, 0x0A, 0x00])
     exec (.call 0x0A00) s = .next (next (.call 0x0A00) s) ∧ (next (.call 0x0A00) s).fault = none ∧ s.sp.toNat ≤ 0xFC) ∧
    (let s := setSp 0xFE (at_ 0x900 [0xC3, 0x0A, 0x00])
     exec (.call 0x0A00) s = .next (next (.call 0x0A00) s) ∧ (next (.call 0x0A00) s).fault = none ∧ s.sp = 0xFE) :=
  ⟨⟨rfl, by decide, by decide⟩, ⟨rfl, by decide, by decide⟩⟩

-- Bus
theorem witness_BusrReadsTheDeliveredByte :
    let s := withAnswers [.ok 0xC3, .fail] [] [] (at_ 0x800 [0xD0])
    s.bus.readAnswers = .ok 0xC3 :: [.fail] ∧ ready s [0xD0] := ⟨rfl, ⟨rfl, rfl⟩, rfl, trivial⟩
theorem witness_BuswAndBusclrTransact :
    (let s := withAnswers [] [.ok] [] (at_ 0x800 [0xD1])
     s.bus.writeAnswers = .ok :: [] ∧ ready s [0xD1]) ∧
    (let s := withAnswers [] [] [.ok, .fail] (at_ 0x800 [0xD2])
     s.bus.resetAnswers = .ok :: [.fail] ∧ ready s [0xD2]) :=
  ⟨⟨rfl, ⟨rfl, rfl⟩, rfl, trivial⟩, ⟨rfl, ⟨rfl, rfl⟩, rfl, trivial⟩⟩
theorem witness_BusFailAnswerRaises :
    (let s := withAnswers [.fail] [] [] (at_ 0x800 [0xD0])
     s.bus.readAnswers.head? = some .fail ∧ ready s [0xD0]) ∧
    (let s := withAnswers [] [.fail] [] (at_ 0x800 [0xD1])
     s.bus.writeAnswers.head? = some .fail ∧ ready s [0xD1]) ∧
    (let s := withAnswers [] [] [.fail] (at_ 0x800 [0xD2])
     s.bus.resetAnswers.head? = some .fail ∧ ready s [0xD2]) :=
  ⟨⟨rfl, ⟨rfl, rfl⟩, rfl, trivial⟩, ⟨rfl, ⟨rfl, rfl⟩, rfl, trivial⟩, ⟨rfl, ⟨rfl, rfl⟩, rfl, trivial⟩⟩
theorem witness_UnansweredBusInstructionWaits :
    (Running (at_ 0x800 [0xD0]) ∧ WaitsForBus (at_ 0x800 [0xD0])) ∧
      (Running (at_ 0x800 [0xD1]) ∧ WaitsForBus (at_ 0x800 [0xD1])) ∧
      (Running (at_ 0x800 [0xD2]) ∧ WaitsForBus (at_ 0x800 [0xD2])) :=
  ⟨⟨⟨rfl, rfl⟩, .inl ⟨rfl, rfl⟩⟩, ⟨⟨rfl, rfl⟩, .inr (.inl ⟨rfl, rfl⟩)⟩, ⟨⟨rfl, rfl⟩, .inr (.inr ⟨rfl, rfl⟩)⟩⟩

-- Undefined opcodes: both ends of the four ranges, and the bytes beside them
theorem witness_UndefinedOpcodesRaise :
    (∀ op ∈ [0xB6, 0xBF, 0xC6, 0xCF, 0xD3, 0xDF, 0xE2, 0xEF], IsUndefinedOpcode op) ∧
      (∀ op ∈ [0xB5, 0xC0, 0xC5, 0xD0, 0xD2, 0xE0, 0xE1, 0xF0], ¬ IsUndefinedOpcode op) ∧
      Running (at_ 0x800 [0xDF]) ∧ IsUndefinedOpcode (opcodeAt (at_ 0x800 [0xDF])) := by
  refine ⟨?_, ?_, ⟨rfl, rfl⟩, ?_⟩ <;> unfold IsUndefinedOpcode <;> decide

-- Rules about the whole machine
/-- The engine runs, and its next step is the raise of `e`. -/
def raisesNext (e : ExecError) (s : State) : Prop :=
  Running s ∧ ∃ t, step s = .next t ∧ t.fault = some e

/-- One state for each error; it also serves ErrorLeavesThePreciseState and FaultingAddressIsThatOfTheInstruction. -/
theorem witness_EachErrorHasItsCause :
    raisesNext .invalidOpcode (at_ 0x800 [0xB6]) ∧ raisesNext .reservedOpcode (at_ 0x800 [0xF0]) ∧
      raisesNext .stackOverflow (setSp 0xFF (at_ 0x800 [0xC3])) ∧
      raisesNext .stackOverflow { setSp 0xFE (at_ 0x800 [0xC3]) with stackFullPolicy := .fault } ∧
      raisesNext .stackUnderflow (at_ 0x800 [0xC4]) ∧
      raisesNext .busFailure (withAnswers [.fail] [] [] (at_ 0x800 [0xD0])) ∧
      raisesNext .divideByZero (at_ 0xFFFF [0x8F]) := by
  refine ⟨?_, ?_, ?_, ?_, ?_, ?_, ?_⟩ <;> exact ⟨⟨rfl, rfl⟩, _, rfl, rfl⟩
theorem witness_ErrorLeavesThePreciseState : raisesNext .stackUnderflow (withAcc 0x80 (at_ 0x800 [0xC4])) :=
  ⟨⟨rfl, rfl⟩, _, rfl, rfl⟩
theorem witness_FaultingAddressIsThatOfTheInstruction : raisesNext .reservedOpcode (at_ 0xFFFF [0xFF]) :=
  ⟨⟨rfl, rfl⟩, _, rfl, rfl⟩
theorem witness_CompletedStepClassifiesAcc :
    let s := setAcc 0x80 (at_ 0x800 [0xE0])
    Running s ∧ ¬ WaitsForBus s ∧ ∃ t, step s = .next t ∧ t.fault = none :=
  ⟨⟨rfl, rfl⟩, by unfold WaitsForBus; decide, _, rfl, rfl⟩
theorem witness_OnlyTheirInstructionsWriteRegisters :
    (∃ t, step (at_ 0x800 [0xB0]) = .next t ∧ t.acc ≠ (at_ 0x800 [0xB0]).acc) ∧
      (∃ t, step (at_ 0x800 [0x0F, 0xFF]) = .next t ∧ readReg t 15 ≠ readReg (at_ 0x800 [0x0F, 0xFF]) 15) ∧
      (∃ t, step (at_ 0x800 [0xC3]) = .next t ∧ t.sp ≠ (at_ 0x800 [0xC3]).sp) ∧
      (∃ t, step (setSp 2 (at_ 0x800 [0xC4])) = .next t ∧ t.sp ≠ (setSp 2 (at_ 0x800 [0xC4])).sp) := by
  refine ⟨?_, ?_, ?_, ?_⟩ <;> exact ⟨_, rfl, by decide⟩
theorem witness_OnlyStAndCallWriteMemory :
    (let s := writeReg 1 0x54 (at_ 0x800 [0x21, 0xFF, 0xFF])
     ∃ t, step s = .next t ∧ readMem t 0xFFFF ≠ readMem s 0xFFFF) ∧
    (let s := setSp 0xFE (at_ 0x800 [0xC3])
     ∃ t, step s = .next t ∧ readMem t 0x00FE ≠ readMem s 0x00FE ∧ readMem t 0x00FF ≠ readMem s 0x00FF) :=
  ⟨⟨_, rfl, by decide⟩, ⟨_, rfl, by decide⟩⟩
theorem witness_StatusChangesOnlyByHalt :
    (∃ t, step (at_ 0x800 [0xE1]) = .next t ∧ t.status ≠ (at_ 0x800 [0xE1]).status) ∧
      (next .ret State.reset).fault ≠ none ∧ ∃ t, step (next .ret State.reset) = .next t :=
  ⟨⟨_, rfl, by decide⟩, by decide, ⟨_, rfl⟩⟩
theorem witness_OnlyBusInstructionsTransact :
    let s := withAnswers [] [.ok] [] (at_ 0x800 [0xD1])
    ∃ t, step s = .next t ∧ t.bus ≠ s.bus := ⟨_, rfl, by decide⟩
theorem witness_BusEnvironmentReachesOnlyBusInstructions :
    ¬ (0xD0 ≤ (opcodeAt (at_ 0x800 [0xC3])).toNat ∧ (opcodeAt (at_ 0x800 [0xC3])).toNat ≤ 0xD2) ∧
      ∃ t, step (at_ 0x800 [0xC3]) = .next t := ⟨by decide, ⟨_, rfl⟩⟩
theorem witness_inv_reset : Inv State.reset :=
  ⟨by decide, by decide, by decide, by decide, by decide, by decide⟩
theorem witness_EveryStepKeepsTheInvariant : Inv State.reset ∧ ∃ t, step State.reset = .next t :=
  ⟨witness_inv_reset, ⟨_, rfl⟩⟩
theorem witness_ResetEstablishesTheInvariant :
    ∃ t, hostReset [0x00, 0x05, 0xE1] (setStatus .halted State.reset) = .loaded t := ⟨_, rfl⟩
theorem witness_ResetLoadsTheImage :
    63487 < (List.replicate 63488 (0xFF : Byte)).length ∧ (List.replicate 63487 (0xFF : Byte)).length ≤ 63487 ∧
      0 < (List.replicate 63487 (0xFF : Byte)).length := by simp only [List.length_replicate]; decide
theorem witness_MemoryFormIsCanonical :
    let m₁ := (Memory.write (Memory.write [] 5 0x01) 3 0x02).write 5 0x00
    let m₂ := Memory.write [] 3 0x02
    m₁.wf ∧ m₂.wf ∧ ∀ a : Addr, m₁.read a = m₂.read a := ⟨by decide, by decide, fun _ => rfl⟩
theorem witness_StoreIsSeenByTheNextFetch :
    let s := writeReg 1 0xE1 (at_ 0x800 [0x21, 0x08, 0x03])
    ready s [0x2#4 ++ 1#4, 0x08, 0x03] ∧ 0x08#8 ++ 0x03#8 = s.pc + 3 ∧ ∃ t, step s = .next t :=
  ⟨⟨⟨rfl, rfl⟩, rfl, rfl, rfl, trivial⟩, by decide, ⟨_, rfl⟩⟩
theorem witness_RunIsHaltedFaultedOrRunning :
    (∃ t u, hostReset [0xE1] State.reset = .loaded t ∧ runFor 1 t = .next u ∧ HaltedEnd u) ∧
      (∃ t u, hostReset [0xFF] State.reset = .loaded t ∧ runFor 1 t = .next u ∧ FaultedEnd u) ∧
      (∃ t u, hostReset [0xE0] State.reset = .loaded t ∧ runFor 1 t = .next u ∧ Running u) :=
  ⟨⟨_, _, rfl, rfl, rfl, rfl⟩, ⟨_, _, rfl, rfl, rfl, by decide⟩, ⟨_, _, rfl, rfl, rfl, rfl⟩⟩
theorem witness_RunWithoutRecordedErrorWasSafe :
    ∃ t, runFor 2 (at_ 0x800 [0xE0, 0xE1]) = .next t ∧ t.fault = none := ⟨_, rfl, rfl⟩
theorem witness_ObserveReadsAStoppedEngine :
    Running State.reset ∧ ¬ Running (setStatus .halted State.reset) ∧ ¬ Running (setStatus .suspended State.reset) ∧
      ¬ Running (next .ret State.reset) := by
  unfold Running; decide
theorem witness_AnswerListsCoverEveryBusEnvironment :
    let env : BusEnvironment :=
      { onRead := fun h => if h = [] then some (.ok 0x41) else none
        onWrite := fun _ v => if v = 0x41 then some .ok else some .fail
        onReset := fun _ => none }
    ∃ t, runIn env 3 (at_ 0x800 [0xD0, 0xD1, 0xD2]) = .next t ∧ t.pc = 0x802 := ⟨_, rfl, rfl⟩

end Sys2Proof.Tests
end

section
/-! Proofs about the encoding (`30_encoding.md`). -/

namespace Sys2Proof.Proofs

/-- Settles O4: the bytes are `encode`'s own values on the six instructions; in the other direction each byte list
starts with a whole instruction, so `decode_cons` takes the opcode byte's row and drops as many bytes as its length
says (R62). -/
theorem workedEncodingOfTheSource : Obligations.WorkedEncodingOfTheSource := by
  unfold Obligations.WorkedEncodingOfTheSource
  refine ⟨?encoded, ?ldi0, ?ldi1, ?mov, ?add, ?sav, ?halt⟩
  case encoded => decide
  case ldi0 => exact decode_cons 0x00 [0x05, 0x01, 0x03, 0x30, 0x51, 0x40, 0xE1] (by decide)
  case ldi1 => exact decode_cons 0x01 [0x03, 0x30, 0x51, 0x40, 0xE1] (by decide)
  case mov => exact decode_cons 0x30 [0x51, 0x40, 0xE1] (by decide)
  case add => exact decode_cons 0x51 [0x40, 0xE1] (by decide)
  case sav => exact decode_cons 0x40 [0xE1] (by decide)
  case halt => exact decode_cons 0xE1 [] (by decide)

end Sys2Proof.Proofs
end

section
/-! Proofs about the engine (`40_engine.md`). -/

namespace Sys2Proof.Proofs

open Sys2Proof.Machine

/-! ### The opcode of the fetched instruction -/

/-- The decoder keeps the opcode byte: it comes first in the encoding of what is decoded (R60). The operand bytes do
not reach it, so that 256 opcodes are left to look at. -/
theorem head_encode_decodeOpcode (op b1 b2 : Byte) : (encode (decodeOpcode op b1 b2)).head? = some op := by
  have operands_irrelevant : (encode (decodeOpcode op b1 b2)).head? = (encode (decodeOpcode op 0 0)).head? := by
    unfold decodeOpcode decodeControl
    repeat' split
    all_goals rfl
  have opcode_first : ∀ op, (encode (decodeOpcode op 0 0)).head? = some op := by decide
  rw [operands_irrelevant, opcode_first]

theorem head_encode_fetchInstr (s : State) : (encode (fetchInstr s)).head? = some (opcodeAt s) :=
  head_encode_decodeOpcode ..

/-- An instruction that is fetched stands in memory with its own opcode byte. -/
theorem opcodeAt_of_fetchInstr {s : State} {i : Instr} {op : Byte} {rest : List Byte} (hi : fetchInstr s = i)
    (he : encode i = op :: rest) : opcodeAt s = op := by
  simpa [hi, he] using (head_encode_fetchInstr s).symm

/-! ### How an instruction ends -/

/-- `i` is a bus instruction, and the environment does not answer its transaction (R125). -/
def Unanswered (i : Instr) (s : State) : Prop :=
  (i = .busr ∧ s.bus.readAnswers = []) ∨ (i = .busw ∧ s.bus.writeAnswers = []) ∨
    (i = .busclr ∧ s.bus.resetAnswers = [])

theorem waitsForBus_of_unanswered {s : State} (h : Unanswered (fetchInstr s) s) : WaitsForBus s := by
  obtain ⟨hi, hb⟩ | ⟨hi, hb⟩ | ⟨hi, hb⟩ := h
  · exact .inl ⟨opcodeAt_of_fetchInstr hi rfl, hb⟩
  · exact .inr (.inl ⟨opcodeAt_of_fetchInstr hi rfl, hb⟩)
  · exact .inr (.inr ⟨opcodeAt_of_fetchInstr hi rfl, hb⟩)

/-- Every instruction completes or raises, but for a bus instruction without an answer. `exec_next_cases` says what
the end changes; this says that only an unanswered transaction ends without one of the two. -/
theorem exec_completes_or_raises (i : Instr) (s : State) (answered : ¬ Unanswered i s) :
    (∃ u, exec i s = complete u) ∨ ∃ e u, exec i s = raise e u := by
  cases i with
  | div n =>
    simp only [exec, execDiv]
    split
    · exact .inr ⟨_, _, rfl⟩
    · exact .inl ⟨_, rfl⟩
  | call target =>
    simp only [exec, execCall]
    split
    · exact .inr ⟨_, _, rfl⟩
    · exact .inl ⟨_, rfl⟩
  | ret =>
    simp only [exec, execRet]
    split
    · exact .inr ⟨_, _, rfl⟩
    · exact .inl ⟨_, rfl⟩
  | busr =>
    simp only [exec, execBusr]
    split
    · exact absurd (.inl ⟨rfl, (busRead_none _).mp ‹_›⟩) answered
    · exact .inr ⟨_, _, rfl⟩
    · exact .inl ⟨_, rfl⟩
  | busw =>
    simp only [exec, execBusw]
    split
    · exact absurd (.inr (.inl ⟨rfl, (busWrite_none _ _).mp ‹_›⟩)) answered
    · exact .inr ⟨_, _, rfl⟩
    · exact .inl ⟨_, rfl⟩
  | busclr =>
    simp only [exec, execBusclr]
    split
    · exact absurd (.inr (.inr ⟨rfl, (busReset_none _).mp ‹_›⟩)) answered
    · exact .inr ⟨_, _, rfl⟩
    · exact .inl ⟨_, rfl⟩
  | reserved | undefB6 | undefB8 | undefC6 | undefC8 | undefD3 | undefD4 | undefD8 | undefE2 | undefE4 | undefE8 =>
    exact .inr ⟨_, _, rfl⟩
  | _ => exact .inl ⟨_, rfl⟩

/-- A step that neither waits nor records an error recomputes FLAG (R88). -/
theorem step_flag_eq_classify {s t : State} (running : Running s) (h : step s = .next t) (safe : t.fault = none)
    (answered : ¬ WaitsForBus s) : t.flag = classify t.acc := by
  rw [step_running running] at h
  obtain ⟨u, hu⟩ | ⟨e, u, hu⟩ := exec_completes_or_raises (fetchInstr s) s (mt waitsForBus_of_unanswered answered)
  · obtain rfl := complete_next.mp (hu ▸ h)
    rfl
  · obtain rfl := raise_next.mp (hu ▸ h)
    exact nomatch safe

/-! ### The classification as ranges (R87) -/

theorem classify_eq_zero_iff (v : Byte) : classify v = .zero ↔ v.toNat = 0 := by
  rw [classify_toNat]
  grind

theorem classify_eq_positive_iff (v : Byte) : classify v = .positive ↔ 1 ≤ v.toNat ∧ v.toNat ≤ 0x7F := by
  rw [classify_toNat]
  grind

theorem classify_eq_negative_iff (v : Byte) : classify v = .negative ↔ 0x80 ≤ v.toNat := by
  rw [classify_toNat]
  grind

/-- Settles O38: the first part is `classify` with its test for 0 read as a number. A step that records no error and
does not wait completes (`exec_completes_or_raises`), so its last act is the flag recompute; the ranges are those of
`classify`. -/
theorem completedStepClassifiesAcc : Obligations.CompletedStepClassifiesAcc := by
  unfold Obligations.CompletedStepClassifiesAcc
  refine ⟨fun v => ?rule, fun s t running h safe answered => ?step⟩
  case rule => simp [classify, ← BitVec.toNat_inj]
  case step =>
    have recomputed := step_flag_eq_classify running h safe answered
    rw [recomputed]
    exact ⟨rfl, classify_ne_error _, classify_eq_zero_iff _, classify_eq_positive_iff _, classify_eq_negative_iff _⟩

end Sys2Proof.Proofs
end

section
/-! Proofs about the loads and the store (`41_load_store.md`). -/

namespace Sys2Proof.Proofs

open Sys2Proof.Machine

/-! ### From the meaning of an instruction to its step -/

/-- What an instruction answers is what a running engine steps to, when the bytes decode to that instruction and to
nothing after it. -/
theorem stepsTo_of_exec {i : Instr} {bytes : List Byte} {s t : State} (answers : exec i s = .next t)
    (decoded : decode bytes = .ok (i, [])) : StepsTo i bytes s t := by
  refine ⟨answers, fun running hold => ?_⟩
  rw [step_running running, fetchInstr_of_decode hold decoded, answers]

/-- Decoding the bytes of one whole instruction leaves no byte over (R62). -/
theorem decode_whole {op : Byte} {rest : List Byte} (h : instrLength op = rest.length + 1) :
    decode (op :: rest) = .ok (decodeOpcode op (rest.getD 0 0) (rest.getD 1 0), []) := by
  simp [decode_cons op rest h.le, h]

/-! ### The encodings of families 0x0 to 0x2 (R61, R64) -/

theorem decode_ldi (n : RegIdx) (imm : Byte) : decode [opcodeByte 0x0 n, imm] = .ok (.ldi n imm, []) := by
  rw [decode_whole (instrLength_opcodeByte_0 n)]
  simp [decodeOpcode]

theorem decode_ld (n : RegIdx) (hi lo : Byte) :
    decode [opcodeByte 0x1 n, hi, lo] = .ok (.ld n (joinBytes hi lo), []) := by
  rw [decode_whole (instrLength_opcodeByte_1 n)]
  simp [decodeOpcode]

theorem decode_st (n : RegIdx) (hi lo : Byte) :
    decode [opcodeByte 0x2 n, hi, lo] = .ok (.st n (joinBytes hi lo), []) := by
  rw [decode_whole (instrLength_opcodeByte_2 n)]
  simp [decodeOpcode]

/-! ### The store -/

/-- ST writes R[n] at its address and nothing else (R97). -/
theorem execSt_spec (n : RegIdx) (addr : Addr) (s : State) :
    ∃ t, execSt n addr s = .next t ∧ readMem t addr = readReg s n ∧
      (∀ a : Addr, a ≠ addr → readMem t a = readMem s a) ∧
      CompletedPast 3 s t ∧ t.acc = s.acc ∧ SameRegs s t ∧ t.sp = s.sp :=
  ⟨_, rfl, readMem_writeMem_same (advance 3 s) addr (readReg s n),
    fun _ h => readMem_writeMem_other h (advance 3 s) (readReg s n),
    ⟨rfl, rfl, rfl, rfl, rfl, rfl⟩, rfl, fun _ => rfl, rfl⟩

/-- Settles O12: `execSt_spec` says what the store writes and what it leaves, and its three bytes decode to it. -/
theorem stStoresTheRegister : Obligations.StStoresTheRegister := by
  unfold Obligations.StStoresTheRegister
  intro n hi lo s
  obtain ⟨t, answers, effect⟩ := execSt_spec n (hi ++ lo) s
  exact ⟨t, stepsTo_of_exec answers (decode_st n hi lo), effect⟩

/-! ### The loads -/

/-- Settles O10: LDI ends in `completeReg` with its immediate, two bytes on (R95). -/
theorem ldiLoadsTheImmediate : Obligations.LdiLoadsTheImmediate := by
  unfold Obligations.LdiLoadsTheImmediate
  intro n imm s
  obtain ⟨t, answers, effect⟩ := completeReg_spec n imm 2 s
  exact ⟨t, stepsTo_of_exec answers (decode_ldi n imm), effect⟩

/-- Settles O11: LD ends in `completeReg` with the byte that stands at its address before the load, three bytes on
(R96). -/
theorem ldLoadsTheAddressedByte : Obligations.LdLoadsTheAddressedByte := by
  unfold Obligations.LdLoadsTheAddressedByte
  intro n hi lo s
  obtain ⟨t, answers, effect⟩ := completeReg_spec n (readMem s (hi ++ lo)) 3 s
  exact ⟨t, stepsTo_of_exec answers (decode_ld n hi lo), effect⟩

end Sys2Proof.Proofs
end

section
/-! Proofs about the accumulator transfers and the binary ALU operations (`42_transfer_alu.md`). -/

namespace Sys2Proof.Proofs

open Sys2Proof.Machine

/-! ### The encodings of families 0x3 to 0xA (R61, R64) -/

/-- The one byte of a register form decodes as its opcode's row says; there are no operand bytes to read (R62). -/
theorem decode_registerForm {family : BitVec 4} {n : RegIdx} {i : Instr}
    (oneByte : instrLength (opcodeByte family n) = 1) (row : decodeOpcode (opcodeByte family n) 0 0 = i) :
    decode [opcodeByte family n] = .ok (i, []) := by
  subst row
  exact decode_whole oneByte

theorem decode_mov (n : RegIdx) : decode [opcodeByte 0x3 n] = .ok (.mov n, []) :=
  decode_registerForm (instrLength_opcodeByte_3 n) (by simp [decodeOpcode])

theorem decode_sav (n : RegIdx) : decode [opcodeByte 0x4 n] = .ok (.sav n, []) :=
  decode_registerForm (instrLength_opcodeByte_4 n) (by simp [decodeOpcode])

theorem decode_add (n : RegIdx) : decode [opcodeByte 0x5 n] = .ok (.add n, []) :=
  decode_registerForm (instrLength_opcodeByte_5 n) (by simp [decodeOpcode])

theorem decode_sub (n : RegIdx) : decode [opcodeByte 0x6 n] = .ok (.sub n, []) :=
  decode_registerForm (instrLength_opcodeByte_6 n) (by simp [decodeOpcode])

theorem decode_mul (n : RegIdx) : decode [opcodeByte 0x7 n] = .ok (.mul n, []) :=
  decode_registerForm (instrLength_opcodeByte_7 n) (by simp [decodeOpcode])

theorem decode_div (n : RegIdx) : decode [opcodeByte 0x8 n] = .ok (.div n, []) :=
  decode_registerForm (instrLength_opcodeByte_8 n) (by simp [decodeOpcode])

theorem decode_and (n : RegIdx) : decode [opcodeByte 0x9 n] = .ok (.and n, []) :=
  decode_registerForm (instrLength_opcodeByte_9 n) (by simp [decodeOpcode])

theorem decode_or (n : RegIdx) : decode [opcodeByte 0xA n] = .ok (.or n, []) :=
  decode_registerForm (instrLength_opcodeByte_10 n) (by simp [decodeOpcode])

/-! ### Instructions that end in `completeAcc` -/

/-- An instruction whose result `v` goes to ACC writes the byte of that value and nothing else (R98, R107). -/
theorem writesAcc_of_exec {i : Instr} {bytes : List Byte} {s : State} {v : Byte} {value : Nat}
    (result : exec i s = completeAcc v s) (decoded : decode bytes = .ok (i, [])) (reads : v.toNat = value) :
    WritesAcc i bytes s value := by
  obtain ⟨t, answers, acc, past, frame⟩ := completeAcc_spec v s
  exact ⟨t, stepsTo_of_exec (result.trans answers) decoded, acc ▸ reads, past, frame⟩

theorem acc_of_completeAcc_next {v : Byte} {s t : State} (h : completeAcc v s = .next t) : t.acc = v := by
  rw [complete_next.mp h, setAcc_acc]

/-! ### The transfers -/

/-- Settles O13: MOV ends in `completeAcc` with R[n] (R99), SAV in `completeReg` with ACC (R100). -/
theorem movAndSavCopyAByte : Obligations.MovAndSavCopyAByte := by
  unfold Obligations.MovAndSavCopyAByte
  intro n s
  constructor
  case left => exact writesAcc_of_exec rfl (decode_mov n) rfl
  case right =>
    obtain ⟨t, answers, effect⟩ := completeReg_spec n s.acc 1 s
    exact ⟨t, stepsTo_of_exec answers (decode_sav n), effect⟩

/-! ### The ALU -/

/-- The difference of two bytes is the integer difference modulo 256 (R102). -/
theorem byte_sub_toNat (a b : Byte) : (a - b).toNat = (((a.toNat : Int) - b.toNat) % 256).toNat := by
  have := b.isLt
  rw [BitVec.toNat_sub]
  omega

/-- Settles O14: the three results are the sum, difference and product of `BitVec 8`, which wrap at 256. -/
theorem addSubMulWrapModulo256 : Obligations.AddSubMulWrapModulo256 := by
  unfold Obligations.AddSubMulWrapModulo256
  intro n s
  refine ⟨?add, ?sub, ?mul⟩
  case add => exact writesAcc_of_exec rfl (decode_add n) (BitVec.toNat_add _ _)
  case sub => exact writesAcc_of_exec rfl (decode_sub n) (byte_sub_toNat _ _)
  case mul => exact writesAcc_of_exec rfl (decode_mul n) (BitVec.toNat_mul _ _)

/-- Settles O15: the result byte of O14, read as two's complement, is the balanced residue of the signed operation. -/
theorem addSubMulAgreeWithSignedArithmetic : Obligations.AddSubMulAgreeWithSignedArithmetic := by
  unfold Obligations.AddSubMulAgreeWithSignedArithmetic
  intro n s t
  refine ⟨fun h => ?add, fun h => ?sub, fun h => ?mul⟩
  case add => rw [acc_of_completeAcc_next h, BitVec.toInt_add]
  case sub => rw [acc_of_completeAcc_next h, BitVec.toInt_sub]
  case mul => rw [acc_of_completeAcc_next h, BitVec.toInt_mul]

/-- Settles O16: the results are the bitwise operations of `BitVec 8`, which read as those of the numbers. -/
theorem andOrAreBitwise : Obligations.AndOrAreBitwise := by
  unfold Obligations.AndOrAreBitwise
  intro n s
  constructor
  case left => exact writesAcc_of_exec rfl (decode_and n) (BitVec.toNat_and _ _)
  case right => exact writesAcc_of_exec rfl (decode_or n) (BitVec.toNat_or _ _)

/-! ### The division -/

theorem execDiv_of_ne_zero {n : RegIdx} {s : State} (nonzero : readReg s n ≠ 0) :
    execDiv n s = completeAcc (s.acc.udiv (readReg s n)) s := if_neg nonzero

theorem execDiv_of_eq_zero {n : RegIdx} {s : State} (zero : readReg s n = 0) :
    execDiv n s = raise .divideByZero s := if_pos zero

/-- Settles O17: with a nonzero divisor DIV ends in `completeAcc` with the unsigned quotient (R104). -/
theorem divGivesTheUnsignedQuotient : Obligations.DivGivesTheUnsignedQuotient := by
  unfold Obligations.DivGivesTheUnsignedQuotient
  intro n s nonzero
  exact writesAcc_of_exec (execDiv_of_ne_zero nonzero) (decode_div n) BitVec.toNat_udiv

/-- Settles O18: with a zero divisor DIV is the raise of DivideByZero from the state before the fetch (R104, R143). -/
theorem divByZeroRaises : Obligations.DivByZeroRaises := by
  unfold Obligations.DivByZeroRaises
  intro n s zero
  obtain ⟨t, answers, effect⟩ := raise_spec .divideByZero s
  exact ⟨t, stepsTo_of_exec ((execDiv_of_eq_zero zero).trans answers) (decode_div n), effect⟩

end Sys2Proof.Proofs
end

section
/-! Proofs about the unary accumulator operations (`43_unary.md`). -/

namespace Sys2Proof.Proofs

open Sys2Proof.Machine

/-! ### The encodings of family 0xB (R61, R64) -/

theorem decode_inc : decode [0xB0] = .ok (.inc, []) := by decide

theorem decode_dec : decode [0xB1] = .ok (.dec, []) := by decide

theorem decode_shl : decode [0xB2] = .ok (.shl, []) := by decide

theorem decode_shr : decode [0xB3] = .ok (.shr, []) := by decide

theorem decode_neg : decode [0xB4] = .ok (.neg, []) := by decide

theorem decode_not : decode [0xB5] = .ok (.not, []) := by decide

/-! ### The shifts as numbers -/

/-- The left shift by one bit doubles the byte modulo 256: bit 7 is lost (R110). -/
theorem byte_shiftLeft_one_toNat (a : Byte) : (a <<< 1).toNat = (a.toNat * 2) % 256 := by
  rw [BitVec.toNat_shiftLeft, Nat.shiftLeft_eq, Nat.pow_one]

/-- The right shift by one bit halves the byte, rounded down: bit 0 is lost (R111). -/
theorem byte_shiftRight_one_toNat (a : Byte) : (a >>> 1).toNat = a.toNat / 2 := by
  rw [BitVec.toNat_ushiftRight, Nat.shiftRight_one]

/-! ### The obligations -/

/-- Settles O19: the results are the sum and the difference of ACC and 1 in `BitVec 8`, which wrap at 256. -/
theorem incDecWrapModulo256 : Obligations.IncDecWrapModulo256 := by
  unfold Obligations.IncDecWrapModulo256
  intro s
  constructor
  case left => exact writesAcc_of_exec rfl decode_inc (BitVec.toNat_add _ 1)
  case right => exact writesAcc_of_exec rfl decode_dec (byte_sub_toNat _ 1)

/-- Settles O20: the shifts by one bit, read as numbers, double modulo 256 and halve rounded down. -/
theorem shiftsAreLogical : Obligations.ShiftsAreLogical := by
  unfold Obligations.ShiftsAreLogical
  intro s
  constructor
  case left => exact writesAcc_of_exec rfl decode_shl (byte_shiftLeft_one_toNat _)
  case right => exact writesAcc_of_exec rfl decode_shr (byte_shiftRight_one_toNat _)

/-- Settles O21: NEG is the difference of 0 and ACC (`byte_sub_toNat`), and the bitwise complement of a byte is 0xFF minus
that byte. -/
theorem negAndNot : Obligations.NegAndNot := by
  unfold Obligations.NegAndNot
  intro s
  constructor
  case left => exact writesAcc_of_exec rfl decode_neg (byte_sub_toNat 0 _)
  case right => exact writesAcc_of_exec rfl decode_not BitVec.toNat_not

end Sys2Proof.Proofs
end

section
/-! Proofs about NOP, HALT, the reserved family and the undefined opcodes (`46_system.md`). -/

namespace Sys2Proof.Proofs

open Sys2Proof.Machine

/-! ### The undefined opcodes -/

/-- The rows of undefined sub-opcodes (R65); a row whose mask leaves bits free carries the byte `op`. -/
def undefinedRows (op : Byte) : List Instr :=
  [.undefB6 op, .undefB8 op, .undefC6 op, .undefC8 op, .undefD3, .undefD4 op, .undefD8 op, .undefE2 op, .undefE4 op,
    .undefE8 op]

/-- Every undefined row is the raise of InvalidOpcode from the state before the fetch (R136). -/
theorem exec_of_mem_undefinedRows {i : Instr} {op : Byte} (row : i ∈ undefinedRows op) (s : State) :
    exec i s = raise .invalidOpcode s := by
  simp only [undefinedRows, List.mem_cons, List.not_mem_nil, or_false] at row
  obtain rfl | rfl | rfl | rfl | rfl | rfl | rfl | rfl | rfl | rfl := row <;> rfl

/-- An undefined opcode has no operand bytes, in family 0xC either (R136). -/
theorem instrLength_of_isUndefinedOpcode {op : Byte} (undefined : IsUndefinedOpcode op) : instrLength op = 1 := by
  unfold IsUndefinedOpcode at undefined
  revert op
  decide

/-- An undefined opcode decodes to one of the undefined rows, whatever bytes follow it: they are not read, so that 47
opcodes are left to look at. -/
theorem decodeOpcode_mem_undefinedRows {op : Byte} (undefined : IsUndefinedOpcode op) (b1 b2 : Byte) :
    decodeOpcode op b1 b2 ∈ undefinedRows op := by
  rw [decodeOpcode_one (instrLength_of_isUndefinedOpcode undefined) b1 b2 0 0]
  unfold IsUndefinedOpcode at undefined
  revert op
  decide

/-- Settles O35: each of the ten rows is a raise, and an undefined opcode at PC is fetched as one of these rows,
whatever bytes follow it. -/
theorem undefinedOpcodesRaise : Obligations.UndefinedOpcodesRaise := by
  unfold Obligations.UndefinedOpcodesRaise
  refine ⟨fun op s i row => ?rows, fun s running undefined => ?bytes⟩
  case rows =>
    rw [exec_of_mem_undefinedRows row]
    exact raise_spec .invalidOpcode s
  case bytes =>
    have fetched : fetchInstr s ∈ undefinedRows (opcodeAt s) := decodeOpcode_mem_undefinedRows undefined ..
    rw [step_running running, exec_of_mem_undefinedRows fetched]
    exact raise_spec .invalidOpcode s

/-! ### The reserved family -/

theorem decode_reserved (low : RegIdx) : decode [opcodeByte 0xF low] = .ok (.reserved low, []) :=
  decode_registerForm (instrLength_opcodeByte_15 low) (by simp [decodeOpcode])

/-- Settles O34: whatever its low nibble, a reserved opcode is the raise of ReservedOpcode from the state before the
fetch (R135). -/
theorem reservedFamilyRaises : Obligations.ReservedFamilyRaises := by
  unfold Obligations.ReservedFamilyRaises
  intro low s
  obtain ⟨t, answers, effect⟩ := raise_spec .reservedOpcode s
  exact ⟨t, stepsTo_of_exec answers (decode_reserved low), effect⟩

/-! ### NOP and HALT -/

theorem decode_nop : decode [0xE0] = .ok (.nop, []) := by decide

theorem decode_halt : decode [0xE1] = .ok (.halt, []) := by decide

/-- NOP moves PC past its byte and changes no data (R133). -/
theorem execNop_spec (s : State) : ∃ t, execNop s = .next t ∧ CompletedPast 1 s t ∧ SameData s t :=
  ⟨_, rfl, ⟨rfl, rfl, rfl, rfl, rfl, rfl⟩, rfl, fun _ => rfl, fun _ => rfl, rfl⟩

/-- HALT sets STATUS, moves PC past its byte and changes no data (R134). -/
theorem execHalt_spec (s : State) :
    ∃ t, execHalt s = .next t ∧ t.status = .halted ∧ t.pc = s.pc + 1 ∧ t.flag = classify t.acc ∧ t.fault = s.fault ∧
      t.bus = s.bus ∧ t.stackFullPolicy = s.stackFullPolicy ∧ SameData s t :=
  ⟨_, rfl, rfl, rfl, rfl, rfl, rfl, rfl, rfl, fun _ => rfl, fun _ => rfl, rfl⟩

theorem not_running_of_halted {s : State} (halted : s.status = .halted) : ¬ Running s :=
  fun ⟨running, _⟩ => nomatch halted.symm.trans running

/-- A stopped engine stays in its state for any number of steps (R92, R93). -/
theorem runFor_stopped {s : State} (stopped : ¬ Running s) (k : Nat) : runFor k s = .next s := by
  induction k with
  | zero => rfl
  | succ k ih => rw [runFor_succ (step_stopped stopped), ih]

/-- Settles O33: `execNop_spec` and `execHalt_spec` say what the two instructions do; HALT leaves an engine that does
not run, which no later step changes (`runFor_stopped`). -/
theorem nopAndHalt : Obligations.NopAndHalt := by
  unfold Obligations.NopAndHalt
  intro s
  constructor
  case left =>
    obtain ⟨t, answers, effect⟩ := execNop_spec s
    exact ⟨t, stepsTo_of_exec answers decode_nop, effect⟩
  case right =>
    obtain ⟨t, answers, halted, pc, flag, fault, bus, policy, data⟩ := execHalt_spec s
    exact ⟨t, stepsTo_of_exec answers decode_halt, halted, pc, flag, fault, bus, policy, data,
      runFor_stopped (not_running_of_halted halted)⟩

end Sys2Proof.Proofs
end

section
/-! Proofs about the encoding of every instruction (`30_encoding.md`). -/

namespace Sys2Proof.Proofs

/-! ### What the decoder reads (R62, R64) -/

/-- Decoding succeeds exactly when the list holds as many bytes as the opcode byte says (R62). -/
theorem decode_cons_ok_iff {op : Byte} {rest left : List Byte} {i : Instr} :
    decode (op :: rest) = .ok (i, left) ↔
      instrLength op ≤ rest.length + 1 ∧ decodeOpcode op (rest.getD 0 0) (rest.getD 1 0) = i ∧
        rest.drop (instrLength op - 1) = left := by
  by_cases long : instrLength op ≤ rest.length + 1
  · simp [decode_cons op rest long, long]
  · simp [decode, long, Nat.lt_of_not_le long]

/-- The bytes that an instruction does not take do not reach what is decoded. -/
theorem decodeOpcode_congr {op b1 b2 c1 c2 : Byte} (first : 2 ≤ instrLength op → b1 = c1)
    (second : 3 ≤ instrLength op → b2 = c2) : decodeOpcode op b1 b2 = decodeOpcode op c1 c2 := by
  obtain one | two | three := instrLength_mem op
  · exact decodeOpcode_one one ..
  · rw [first two.ge]
    exact decodeOpcode_two two.le ..
  · rw [first (by omega), second three.ge]

/-- An opcode has no operand bytes, or it is one of families 0x0 to 0x2, CALL or JMP. -/
theorem opcode_oneByte_or_operandForm (op : Byte) :
    instrLength op = 1 ∨ (∃ n, op = opcodeByte 0x0 n) ∨ (∃ n, op = opcodeByte 0x1 n) ∨
      (∃ n, op = opcodeByte 0x2 n) ∨ op = 0xC3 ∨ op = 0xC5 := by
  revert op
  decide

section
variable (n : RegIdx) (b1 b2 : Byte)

@[simp] theorem decodeOpcode_ldi : decodeOpcode (opcodeByte 0#4 n) b1 b2 = .ldi n b1 := by simp [decodeOpcode]
@[simp] theorem decodeOpcode_ld : decodeOpcode (opcodeByte 1#4 n) b1 b2 = .ld n (joinBytes b1 b2) := by
  simp [decodeOpcode]
@[simp] theorem decodeOpcode_st : decodeOpcode (opcodeByte 2#4 n) b1 b2 = .st n (joinBytes b1 b2) := by
  simp [decodeOpcode]
theorem instrLength_call : instrLength 0xC3#8 = 3 := rfl
theorem instrLength_jmp : instrLength 0xC5#8 = 3 := rfl
@[simp] theorem decodeOpcode_call : decodeOpcode 0xC3#8 b1 b2 = .call (joinBytes b1 b2) := rfl
@[simp] theorem decodeOpcode_jmp : decodeOpcode 0xC5#8 b1 b2 = .jmp (joinBytes b1 b2) := rfl

end

/-- The decoder answers only terms that stand for an encoding (R67). -/
theorem wellFormed_decodeOpcode (op b1 b2 : Byte) : wellFormed (decodeOpcode op b1 b2) = true := by
  obtain oneByte | ⟨n, rfl⟩ | ⟨n, rfl⟩ | ⟨n, rfl⟩ | rfl | rfl := opcode_oneByte_or_operandForm op
  case inl =>
    have rows : ∀ op, wellFormed (decodeOpcode op 0 0) = true := by decide
    rw [decodeOpcode_one oneByte b1 b2 0 0, rows]
  all_goals simp [wellFormed]

/-- Encoding what is decoded gives back the bytes that it was read from. -/
theorem encode_decodeOpcode (op b1 b2 : Byte) :
    encode (decodeOpcode op b1 b2) = [op, b1, b2].take (instrLength op) := by
  obtain oneByte | ⟨n, rfl⟩ | ⟨n, rfl⟩ | ⟨n, rfl⟩ | rfl | rfl := opcode_oneByte_or_operandForm op
  case inl =>
    have rows : ∀ op, instrLength op = 1 → encode (decodeOpcode op 0 0) = [op] := by decide
    rw [decodeOpcode_one oneByte b1 b2 0 0, rows op oneByte, oneByte]
    rfl
  all_goals simp [encode, instrLength_call, instrLength_jmp]

/-! ### The round trip -/

theorem decode_call (hi lo : Byte) : decode [0xC3, hi, lo] = .ok (.call (joinBytes hi lo), []) := rfl
theorem decode_jmp (hi lo : Byte) : decode [0xC5, hi, lo] = .ok (.jmp (joinBytes hi lo), []) := rfl
theorem decode_skz : decode [0xC0] = .ok (.skz, []) := by decide
theorem decode_skp : decode [0xC1] = .ok (.skp, []) := by decide
theorem decode_skn : decode [0xC2] = .ok (.skn, []) := by decide
theorem decode_ret : decode [0xC4] = .ok (.ret, []) := by decide
theorem decode_busr : decode [0xD0] = .ok (.busr, []) := by decide
theorem decode_busw : decode [0xD1] = .ok (.busw, []) := by decide
theorem decode_busclr : decode [0xD2] = .ok (.busclr, []) := by decide

/-- The byte that an undefined row carries decodes to that row when it lies in the row (R65). -/
theorem decode_undefinedRow {row : Byte → Instr} {op : Byte}
    (rows : ∀ op, wellFormed (row op) = true → instrLength op = 1 ∧ decodeOpcode op 0 0 = row op)
    (wf : wellFormed (row op) = true) : decode [op] = .ok (row op, []) := by
  obtain ⟨oneByte, reads⟩ := rows op wf
  exact (decode_whole oneByte).trans (by rw [← reads]; rfl)

theorem decode_encode {i : Instr} (wf : wellFormed i = true) : decode (encode i) = .ok (i, []) := by
  cases i with
  | ldi n imm => exact decode_ldi n imm
  | ld n addr => simpa [encode] using decode_ld n (hiByte addr) (loByte addr)
  | st n addr => simpa [encode] using decode_st n (hiByte addr) (loByte addr)
  | mov n => exact decode_mov n
  | sav n => exact decode_sav n
  | add n => exact decode_add n
  | sub n => exact decode_sub n
  | mul n => exact decode_mul n
  | div n => exact decode_div n
  | and n => exact decode_and n
  | or n => exact decode_or n
  | inc => exact decode_inc
  | dec => exact decode_dec
  | shl => exact decode_shl
  | shr => exact decode_shr
  | neg => exact decode_neg
  | not => exact decode_not
  | skz => exact decode_skz
  | skp => exact decode_skp
  | skn => exact decode_skn
  | call target => simpa [encode] using decode_call (hiByte target) (loByte target)
  | ret => exact decode_ret
  | jmp target => simpa [encode] using decode_jmp (hiByte target) (loByte target)
  | busr => exact decode_busr
  | busw => exact decode_busw
  | busclr => exact decode_busclr
  | nop => exact decode_nop
  | halt => exact decode_halt
  | reserved low => exact decode_reserved low
  | undefB6 op => exact decode_undefinedRow (row := .undefB6) (by decide) wf
  | undefB8 op => exact decode_undefinedRow (row := .undefB8) (by decide) wf
  | undefC6 op => exact decode_undefinedRow (row := .undefC6) (by decide) wf
  | undefC8 op => exact decode_undefinedRow (row := .undefC8) (by decide) wf
  | undefD3 => exact decode_whole (op := 0xD3) rfl
  | undefD4 op => exact decode_undefinedRow (row := .undefD4) (by decide) wf
  | undefD8 op => exact decode_undefinedRow (row := .undefD8) (by decide) wf
  | undefE2 op => exact decode_undefinedRow (row := .undefE2) (by decide) wf
  | undefE4 op => exact decode_undefinedRow (row := .undefE4) (by decide) wf
  | undefE8 op => exact decode_undefinedRow (row := .undefE8) (by decide) wf

/-- A whole instruction is decoded alike whatever bytes follow it, and they are left over. -/
theorem decode_append {bytes : List Byte} {i : Instr} (h : decode bytes = .ok (i, [])) (rest : List Byte) :
    decode (bytes ++ rest) = .ok (i, rest) := by
  cases bytes with
  | nil => exact nomatch h
  | cons op operands =>
    obtain ⟨long, row, used⟩ := decode_cons_ok_iff.mp h
    have short := List.drop_eq_nil_iff.mp used
    refine decode_cons_ok_iff.mpr ⟨?_, ?_, List.drop_left' (by omega)⟩
    · exact long.trans (by simp)
    · rw [← row]
      exact decodeOpcode_congr (fun _ => List.getD_append _ _ _ _ (by omega))
        (fun _ => List.getD_append _ _ _ _ (by omega))

/-- Settles O1: the bytes of each of the 39 forms decode to it alone (`decode_encode`), and bytes after a whole
instruction are left over (`decode_append`). -/
theorem encodeThenDecodeIsIdentity : Obligations.EncodeThenDecodeIsIdentity := by
  unfold Obligations.EncodeThenDecodeIsIdentity
  intro i rest wf
  exact decode_append (decode_encode wf) rest

/-- Settles O2: the decoded instruction is `decodeOpcode` of the first three bytes, whose encoding is as many of them as
the opcode byte says (`encode_decodeOpcode`); what is left over is the rest of the list. -/
theorem decodedBytesReencode : Obligations.DecodedBytesReencode := by
  unfold Obligations.DecodedBytesReencode
  intro bytes rest i h
  cases bytes with
  | nil => exact nomatch h
  | cons op operands =>
    obtain ⟨long, rfl, rfl⟩ := decode_cons_ok_iff.mp h
    refine ⟨wellFormed_decodeOpcode .., ?_⟩
    rw [encode_decodeOpcode]
    obtain one | two | three := instrLength_mem op
    · simp [one]
    · obtain ⟨b1, left, rfl⟩ := List.exists_cons_of_length_pos (l := operands) (by omega)
      simp [two]
    · match operands, long with
      | b1 :: b2 :: left, _ => simp [three]
      | [_], long | [], long => simp [three] at long

/-- The length of R62 as ranges of the opcode byte. -/
theorem instrLength_eq_ite (op : Byte) :
    instrLength op = if op.toNat ≤ 0x0F then 2 else if op.toNat ≤ 0x2F ∨ op = 0xC3 ∨ op = 0xC5 then 3 else 1 := by
  revert op
  decide

/-- Settles O3: the ranges are those of `instrLength`. The bytes of an instruction decode to it with nothing left over,
so they are as many as the opcode byte says; and a list decodes exactly when it is that long (`decode_cons_ok_iff`). -/
theorem opcodeByteFixesLength : Obligations.OpcodeByteFixesLength := by
  unfold Obligations.OpcodeByteFixesLength
  intro op rest
  rw [← instrLength_eq_ite]
  refine ⟨fun i wf encoded => ?length, fun long => ?decodes, fun ⟨i, decoded⟩ => ?long⟩
  case length =>
    have decoded : decode (op :: rest) = .ok (i, []) := encoded ▸ decode_encode wf
    obtain ⟨long, -, used⟩ := decode_cons_ok_iff.mp decoded
    have short := List.drop_eq_nil_iff.mp used
    have := instrLength_mem op
    omega
  case decodes => exact ⟨_, decode_cons_ok_iff.mpr ⟨long, rfl, rfl⟩⟩
  case long => exact (decode_cons_ok_iff.mp decoded).1

end Sys2Proof.Proofs
end

section
/-! Proofs about the fetch and the step (`40_engine.md` section 1), with the memory they read (`20_memory.md`). -/

namespace Sys2Proof.Proofs

open Sys2Proof.Machine

/-! ### A block of bytes in memory -/

/-- Bytes written from `a` on are read back by their distance from `a`; every other address reads as before. -/
theorem read_writeBytes {bytes : List Byte} (fits : bytes.length ≤ 65536) (m : Memory) (a c : Addr) :
    (m.writeBytes a bytes).read c = (bytes[(c - a).toNat]?).getD (m.read c) := by
  induction bytes generalizing m a with
  | nil => simp [Memory.writeBytes]
  | cons b rest ih =>
    rw [List.length_cons] at fits
    rw [Memory.writeBytes, ih (by omega)]
    by_cases first : c = a
    · subst first
      have beyond : rest.length ≤ (c - (c + 1)).toNat := by bv_omega
      rw [List.getElem?_eq_none beyond, Memory.read_write_same]
      simp
    · have distance : (c - a).toNat = (c - (a + 1)).toNat + 1 := by bv_omega
      rw [Memory.read_write_other first, distance, List.getElem?_cons_succ]

theorem holdsAt_take {m : Memory} {a : Addr} {bytes : List Byte} (hold : HoldsAt m a bytes) (k : Nat) :
    HoldsAt m a (bytes.take k) := by
  induction bytes generalizing a k with
  | nil => simpa using hold
  | cons b rest ih =>
    obtain ⟨first, others⟩ := hold
    cases k with
    | zero => trivial
    | succ k => exact ⟨first, ih others k⟩

/-! ### The canonical form -/

/-- In canonical form the entry listed for an address is found there. -/
theorem mem_iff_find {m : Memory} (sorted : m.Pairwise (fun c d => c.1 < d.1)) (a : Nat) (b : Byte) :
    (a, b) ∈ m ↔ Memory.find a m = some b := by
  induction m with
  | nil => simp [Memory.find]
  | cons entry rest ih =>
    obtain ⟨k, v⟩ := entry
    obtain ⟨below, sorted⟩ := List.pairwise_cons.mp sorted
    by_cases here : k = a
    · subst here
      have not_later : (k, b) ∉ rest := fun later => (below _ later).false
      simp [Memory.find, not_later, eq_comm]
    · simp [Memory.find, here, Ne.symm here, ih sorted]

/-- In canonical form the entries are the addresses of M with the bytes other than 0x00 that they read as. -/
theorem mem_iff_read {m : Memory} (wf : m.wf) (a : Nat) (b : Byte) :
    (a, b) ∈ m ↔ a < 65536 ∧ b ≠ Memory.unlisted ∧ m.read (BitVec.ofNat 16 a) = b := by
  obtain ⟨sorted, entries⟩ := wf
  constructor
  · intro listed
    obtain ⟨inside, nonzero⟩ := entries _ listed
    have small : a < 65536 := inside
    refine ⟨small, nonzero, ?_⟩
    simp [Memory.read, Nat.mod_eq_of_lt small, (mem_iff_find sorted a b).mp listed]
  · rintro ⟨small, nonzero, reads⟩
    rw [mem_iff_find sorted]
    simp only [Memory.read, BitVec.toNat_ofNat, Nat.mod_eq_of_lt small] at reads
    cases found : Memory.find a m with
    | none => simp [found, eq_comm, nonzero] at reads
    | some v => simpa [found] using reads

/-- Settles O47: the entries of a memory in canonical form are told by what it reads (`mem_iff_read`), so that the two
lists have the same entries; and both have them in rising order. -/
theorem memoryFormIsCanonical : Obligations.MemoryFormIsCanonical := by
  unfold Obligations.MemoryFormIsCanonical
  intro m₁ m₂ wf₁ wf₂ same
  have nodup : ∀ {m : Memory}, m.wf → m.Nodup := fun wf => wf.1.imp fun lt eq => lt.ne (congrArg Prod.fst eq)
  have perm : m₁.Perm m₂ := (List.perm_ext_iff_of_nodup (nodup wf₁) (nodup wf₂)).mpr fun ⟨a, b⟩ => by
    rw [mem_iff_read wf₁, mem_iff_read wf₂, same]
  exact perm.eq_of_pairwise (fun c d _ _ lt gt => absurd lt gt.asymm) wf₁.1 wf₂.1

/-! ### The instruction at PC -/

theorem addr_add_one_add_one (a : Addr) : a + 1 + 1 = a + 2 := by
  rw [BitVec.add_assoc]
  rfl

theorem wellFormed_fetchInstr (s : State) : wellFormed (fetchInstr s) = true := wellFormed_decodeOpcode ..

/-- The bytes of the instruction that is fetched stand at PC. -/
theorem holdsAt_encode_fetchInstr (s : State) : HoldsAt s.mem s.pc (encode (fetchInstr s)) := by
  have fetched : HoldsAt s.mem s.pc [readMem s s.pc, readMem s (s.pc + 1), readMem s (s.pc + 2)] :=
    ⟨rfl, rfl, congrArg s.mem.read (addr_add_one_add_one s.pc), trivial⟩
  rw [fetchInstr, encode_decodeOpcode]
  exact holdsAt_take fetched _

/-- The fetch reads the well-formed instruction whose bytes stand at PC. -/
theorem fetchInstr_of_holdsAt {s : State} {i : Instr} (wf : wellFormed i = true)
    (hold : HoldsAt s.mem s.pc (encode i)) : fetchInstr s = i :=
  fetchInstr_of_decode hold (decode_encode wf)

/-- Settles O5: the bytes of a well-formed instruction decode to it, so it is what the fetch reads. -/
theorem stepRunsTheDecodedInstruction : Obligations.StepRunsTheDecodedInstruction := by
  unfold Obligations.StepRunsTheDecodedInstruction
  intro s i running wf hold
  rw [step_running running, fetchInstr_of_holdsAt wf hold]

/-- Settles O6: the instruction is the one that is fetched; the decoder answers only well-formed terms, and their
encoding is what it read. -/
theorem everyByteStringAtPcRuns : Obligations.EveryByteStringAtPcRuns := by
  unfold Obligations.EveryByteStringAtPcRuns
  intro s running
  exact ⟨fetchInstr s, wellFormed_fetchInstr s, holdsAt_encode_fetchInstr s, step_running running⟩

/-! ### A word placed at PC -/

/-- The fetch reads three bytes that were placed at PC. -/
theorem fetchInstr_placeAtPc (b0 b1 b2 : Byte) (s : State) :
    fetchInstr (placeAtPc [b0, b1, b2] s) = decodeOpcode b0 b1 b2 := by
  have placed : ∀ a, readMem (placeAtPc [b0, b1, b2] s) a = ([b0, b1, b2][(a - s.pc).toNat]?).getD (readMem s a) :=
    read_writeBytes (by simp) s.mem s.pc
  simp [fetchInstr, placed]

/-- The three bytes of a table word hold a whole instruction, whatever its opcode. -/
theorem decode_three (b0 b1 b2 : Byte) : ∃ rest, decode [b0, b1, b2] = .ok (decodeOpcode b0 b1 b2, rest) := by
  have short : instrLength b0 ≤ [b1, b2].length + 1 := by
    obtain h | h | h := instrLength_mem b0 <;> simp [h]
  exact ⟨_, decode_cons b0 [b1, b2] short⟩

/-- After a table word is placed at PC the fetch reads the instruction that the decoder reads from the word. -/
theorem fetchInstr_placeAtPc_tableBytes (s : State) (nbits w : Nat) :
    decodeTableWord nbits w = some (fetchInstr (placeAtPc (tableBytes nbits w) s)) := by
  obtain ⟨rest, decoded⟩ : ∃ rest, decode (tableBytes nbits w) = .ok (_, rest) := decode_three ..
  simp only [decodeTableWord, decoded]
  exact congrArg some (fetchInstr_placeAtPc ..).symm

/-- Settles O7: the placed bytes are those that the decoder reads the word from, so the fetch reads the same
instruction, and the placing does not stop the engine. -/
theorem placedWordRunsNext : Obligations.PlacedWordRunsNext := by
  unfold Obligations.PlacedWordRunsNext
  intro s nbits w i running decoded
  rw [withFetchWord_eq, step_running (s := placeAtPc _ s) running,
    Option.some.inj ((fetchInstr_placeAtPc_tableBytes s nbits w).symm.trans decoded)]

/-! ### The engine that is stopped -/

/-- Settles O8: such an engine does not run, and `runFor_stopped` says that it stays as it is. -/
theorem stoppedEngineNeverStepsAgain : Obligations.StoppedEngineNeverStepsAgain := by
  unfold Obligations.StoppedEngineNeverStepsAgain
  intro k s stopped
  exact runFor_stopped (fun ⟨status, fault⟩ => stopped.elim (· status) (· fault)) k

/-! ### Every instruction answers a next state -/

/-- A bus instruction without an answer changes nothing (R125). -/
theorem exec_of_unanswered {i : Instr} {s : State} (h : Unanswered i s) : exec i s = .next s := by
  obtain ⟨rfl, empty⟩ | ⟨rfl, empty⟩ | ⟨rfl, empty⟩ := h
  · simp [exec, execBusr, (busRead_none s.bus).mpr empty, waitForBus]
  · simp [exec, execBusw, (busWrite_none s.acc s.bus).mpr empty, waitForBus]
  · simp [exec, execBusclr, (busReset_none s.bus).mpr empty, waitForBus]

theorem exec_answers_next (i : Instr) (s : State) : ∃ t, exec i s = .next t := by
  by_cases unanswered : Unanswered i s
  · exact ⟨s, exec_of_unanswered unanswered⟩
  · obtain ⟨u, completes⟩ | ⟨e, u, raises⟩ := exec_completes_or_raises i s unanswered
    · exact ⟨_, completes⟩
    · exact ⟨_, raises⟩

theorem step_answers_next (s : State) : ∃ t, step s = .next t := by
  by_cases running : Running s
  · exact step_running running ▸ exec_answers_next (fetchInstr s) s
  · exact ⟨s, step_stopped running⟩

/-- Settles O9: an instruction completes, raises or waits, and each of the three is a next state; an engine that does
not run answers its own state. -/
theorem everyInstructionAnswersANextState : Obligations.EveryInstructionAnswersANextState :=
  ⟨exec_answers_next, step_answers_next⟩

end Sys2Proof.Proofs
end

section
/-! Proofs about control transfer (`44_control.md`). -/

namespace Sys2Proof.Proofs

open Sys2Proof.Machine

/-! ### The skips -/

/-- A skip goes one byte further exactly when FLAG has its tested value; where FLAG classifies ACC that is when ACC is
in the range `taken`, and recomputing FLAG changes nothing. -/
theorem skip_of_exec {i : Instr} {bytes : List Byte} {f : Flag} {s : State} {taken : Prop}
    (result : exec i s = skipIf f s) (decoded : decode bytes = .ok (i, [])) (range : classify s.acc = f ↔ taken) :
    ∃ t, StepsTo i bytes s t ∧ CompletedPast (if s.flag = f then 2 else 1) s t ∧ SameData s t ∧
      (s.flag = classify s.acc → t.flag = s.flag ∧ (t.pc = s.pc + 2 ↔ taken)) := by
  obtain ⟨t, answers, ⟨pc, flag, control⟩, ⟨acc, frame⟩⟩ := skipIf_spec f s
  refine ⟨t, stepsTo_of_exec (result.trans answers) decoded, ⟨pc, flag, control⟩, ⟨acc, frame⟩, fun agrees => ⟨?_, ?_⟩⟩
  · rw [flag, acc, agrees]
  · rw [pc, ← range, ← agrees]
    by_cases tested : s.flag = f <;> simp [tested]

/-- Settles O22: each skip is `skipIf` with its flag, and the flag's values of ACC are the ranges of `classify`. -/
theorem skipsTestTheFlag : Obligations.SkipsTestTheFlag := by
  unfold Obligations.SkipsTestTheFlag
  intro s
  refine ⟨?skz, ?skp, ?skn⟩
  case skz => exact skip_of_exec rfl decode_skz (classify_eq_zero_iff _)
  case skp => exact skip_of_exec rfl decode_skp (classify_eq_positive_iff _)
  case skn => exact skip_of_exec rfl decode_skn (classify_eq_negative_iff _)

/-! ### CALL -/

theorem execCall_of_full {s : State} (full : stackFull s = true) (target : Addr) :
    execCall target s = raise .stackOverflow s := if_pos full

theorem execCall_of_not_full {s : State} (room : ¬ stackFull s = true) (target : Addr) :
    execCall target s = complete (setPc (targetAfterPush s target) (pushPc s)) := if_neg room

/-- Everything that a CALL does on a stack that is not full (R118). -/
theorem execCall_spec {s : State} (room : ¬ stackFull s = true) (target : Addr) :
    ∃ t, execCall target s = .next t ∧ t.pc = targetAfterPush s target ∧ t.sp = s.sp + 2 ∧
      (∀ a, readMem t a = byteAfterPush s a (readMem s a)) ∧
      t.flag = classify t.acc ∧ SameControl s t ∧ t.acc = s.acc ∧ SameRegs s t :=
  ⟨_, execCall_of_not_full room target, rfl, rfl, readMem_pushPc s, rfl, ⟨rfl, rfl, rfl, rfl⟩, rfl, fun _ => rfl⟩

/-- Settles O23: `execCall_spec` with what `byteAfterPush` is at the two stack bytes and elsewhere; the target is the
two operand bytes as the push leaves them. -/
theorem callPushesAndJumps : Obligations.CallPushesAndJumps := by
  unfold Obligations.CallPushesAndJumps
  intro hi lo s not_last policy
  have room : ¬ stackFull s = true := by
    rw [stackFull_iff]
    rintro (last | ⟨sp, fault⟩)
    · exact not_last last
    · exact nomatch fault.symm.trans (policy sp)
  obtain ⟨t, answers, pc, sp, mem, rest⟩ := execCall_spec room (hi ++ lo)
  have high : hiByte (hi ++ lo) = hi := hiByte_joinBytes hi lo
  have low : loByte (hi ++ lo) = lo := loByte_joinBytes hi lo
  refine ⟨t, stepsTo_of_exec answers (decode_call hi lo), ?pushed_hi, ?pushed_lo, ?others, ?sp, ?target, ?read, rest⟩
  case pushed_hi => rw [mem, byteAfterPush_hi, hiByte_toNat, pushedValue]
  case pushed_lo => rw [mem, byteAfterPush_lo, loByte_toNat, pushedValue]
  case others =>
    intro a not_hi not_lo
    rw [mem, byteAfterPush_other not_hi not_lo]
  case sp =>
    rw [sp, BitVec.toNat_add]
    rfl
  case target =>
    intro apart
    obtain ⟨first_hi, first_lo⟩ := apart _ (.inl rfl)
    obtain ⟨second_hi, second_lo⟩ := apart _ (.inr rfl)
    rw [pc, targetAfterPush, byteAfterPush_other first_hi first_lo, byteAfterPush_other second_hi second_lo, high, low]
    rfl
  case read =>
    rintro ⟨first, second, -⟩
    rw [addr_add_one_add_one] at second
    rw [pc, targetAfterPush, high, low, mem, mem, readMem, readMem, first, second]
    rfl

/-- Settles O24: on a full stack CALL is the raise of StackOverflow from the state before the fetch. -/
theorem callOnAFullStackRaises : Obligations.CallOnAFullStackRaises := by
  unfold Obligations.CallOnAFullStackRaises
  intro hi lo s full
  obtain ⟨t, answers, effect⟩ := raise_spec .stackOverflow s
  exact ⟨t, stepsTo_of_exec ((execCall_of_full ((stackFull_iff s).mpr full) _).trans answers) (decode_call hi lo), effect⟩

/-! ### RET -/

theorem execRet_of_empty {s : State} (empty : s.sp = 0) : execRet s = raise .stackUnderflow s :=
  if_pos ((stackEmpty_iff s).mpr empty)

theorem execRet_of_pushed {s : State} (pushed : s.sp ≠ 0) :
    execRet s = complete (setPc (poppedValue s + 2) (setSp (s.sp - 2) s)) :=
  if_neg (mt (stackEmpty_iff s).mp pushed)

/-- Everything that a RET does on a stack that is not empty (R119). -/
theorem execRet_spec {s : State} (pushed : s.sp ≠ 0) :
    ∃ t, execRet s = .next t ∧ t.pc = poppedValue s + 2 ∧ t.sp = s.sp - 2 ∧ t.flag = classify t.acc ∧ SameControl s t ∧
      t.acc = s.acc ∧ SameRegs s t ∧ SameMem s t :=
  ⟨_, execRet_of_pushed pushed, rfl, rfl, rfl, ⟨rfl, rfl, rfl, rfl⟩, rfl, fun _ => rfl, fun _ => rfl⟩

/-- Settles O25: `execRet_spec` with the popped pair read as a number. -/
theorem retPopsAndSkipsTheOperand : Obligations.RetPopsAndSkipsTheOperand := by
  unfold Obligations.RetPopsAndSkipsTheOperand
  intro s pushed
  obtain ⟨t, answers, pc, rest⟩ := execRet_spec pushed
  refine ⟨t, stepsTo_of_exec answers decode_ret, ?_, rest⟩
  rw [pc, BitVec.toNat_add, poppedValue, joinBytes_toNat]
  rfl

/-- Settles O26: on an empty stack RET is the raise of StackUnderflow from the state before the fetch. -/
theorem retOnAnEmptyStackRaises : Obligations.RetOnAnEmptyStackRaises := by
  unfold Obligations.RetOnAnEmptyStackRaises
  intro s empty
  obtain ⟨t, answers, effect⟩ := raise_spec .stackUnderflow s
  exact ⟨t, stepsTo_of_exec ((execRet_of_empty empty).trans answers) decode_ret, effect⟩

/-- Settles O28: the two stack bytes hold A+1 as the CALL pushed it (`execCall_spec`), so that the RET pops it and adds
2; a CALL from SP = 0xFE leaves SP = 0, where a RET raises. -/
theorem callThenRetResumesAfterTheCall : Obligations.CallThenRetResumesAfterTheCall := by
  unfold Obligations.CallThenRetResumesAfterTheCall
  intro target s t call safe
  have room : ¬ stackFull s = true := fun full => by
    obtain rfl := raise_next.mp ((execCall_of_full full target).symm.trans call)
    exact nomatch safe
  obtain ⟨_, answers, -, sp, mem, -⟩ := execCall_spec room target
  cases answers.symm.trans call
  refine ⟨fun low u same_sp same_hi same_lo => ?returns, fun last => ?underflows⟩
  case returns =>
    have pushed : u.sp ≠ 0 := by
      rw [same_sp, sp]
      bv_omega
    have top : s.sp + 2 - 1 = s.sp + 1 := by bv_omega
    have popped : poppedValue u = s.pc + 1 := by
      rw [poppedValue, same_sp, sp, BitVec.add_sub_cancel, top, same_hi, same_lo, mem, mem, byteAfterPush_hi,
        byteAfterPush_lo, joinBytes_hiByte_loByte, pushedValue]
    obtain ⟨v, answers, pc, sp', -⟩ := execRet_spec pushed
    refine ⟨v, answers, ?_, ?_⟩
    · rw [pc, popped, BitVec.add_assoc]
      rfl
    · rw [sp', same_sp, sp, BitVec.add_sub_cancel]
  case underflows =>
    have empty : t.sp = 0 := by
      rw [sp, last]
      rfl
    exact ⟨empty, _, execRet_of_empty empty, rfl⟩

/-! ### JMP -/

/-- Settles O27: JMP sets PC to its operand and completes; it looks at no other part of the state (R120). -/
theorem jmpGoesToItsTarget : Obligations.JmpGoesToItsTarget := by
  unfold Obligations.JmpGoesToItsTarget
  intro hi lo s
  exact ⟨_, stepsTo_of_exec rfl (decode_jmp hi lo), rfl, rfl, ⟨rfl, rfl, rfl, rfl⟩, rfl, fun _ => rfl, fun _ => rfl, rfl⟩

end Sys2Proof.Proofs
end

section
/-! Proofs about bus input and output (`45_bus_io.md`). -/

namespace Sys2Proof.Proofs

open Sys2Proof.Machine

/-! ### The three transactions, by the answer at the head of their list (R128 to R131) -/

section
variable {s : State} {v : Byte} {reads : List ReadAnswer} {acks : List Ack}

theorem exec_busr_ok (h : s.bus.readAnswers = .ok v :: reads) : exec .busr s =
    completeAcc v (setBus { s.bus with readAnswers := reads, history := .read (.ok v) :: s.bus.history } s) := by
  simp [exec, execBusr, busRead_cons h]

theorem exec_busr_fail (h : s.bus.readAnswers = .fail :: reads) : exec .busr s =
    raise .busFailure (setBus { s.bus with readAnswers := reads, history := .read .fail :: s.bus.history } s) := by
  simp [exec, execBusr, busRead_cons h]

theorem exec_busw_ok (h : s.bus.writeAnswers = .ok :: acks) : exec .busw s =
    complete (advance 1 (setBus { s.bus with writeAnswers := acks, history := .write s.acc .ok :: s.bus.history } s)) := by
  simp [exec, execBusw, busWrite_cons s.acc h]

theorem exec_busw_fail (h : s.bus.writeAnswers = .fail :: acks) : exec .busw s =
    raise .busFailure (setBus { s.bus with writeAnswers := acks, history := .write s.acc .fail :: s.bus.history } s) := by
  simp [exec, execBusw, busWrite_cons s.acc h]

theorem exec_busclr_ok (h : s.bus.resetAnswers = .ok :: acks) : exec .busclr s =
    complete (advance 1 (setBus { s.bus with resetAnswers := acks, history := .reset .ok :: s.bus.history } s)) := by
  simp [exec, execBusclr, busReset_cons h]

theorem exec_busclr_fail (h : s.bus.resetAnswers = .fail :: acks) : exec .busclr s =
    raise .busFailure (setBus { s.bus with resetAnswers := acks, history := .reset .fail :: s.bus.history } s) := by
  simp [exec, execBusclr, busReset_cons h]

end

/-- Settles O29: with `ok(v)` at the head of the list BUSR ends in `completeAcc` with `v`. -/
theorem busrReadsTheDeliveredByte : Obligations.BusrReadsTheDeliveredByte := by
  unfold Obligations.BusrReadsTheDeliveredByte
  intro v rest s answer
  exact ⟨_, stepsTo_of_exec (exec_busr_ok answer) decode_busr, rfl, rfl, rfl, ⟨fun _ => rfl, fun _ => rfl, rfl⟩, rfl, rfl,
    rfl, rfl⟩

/-- Settles O30: with `ok` at the head of the list BUSW and BUSCLR complete one byte on, with no other change of the
block. -/
theorem buswAndBusclrTransact : Obligations.BuswAndBusclrTransact := by
  unfold Obligations.BuswAndBusclrTransact
  intro rest s
  refine ⟨fun answer => ?busw, fun answer => ?busclr⟩
  case busw =>
    exact ⟨_, stepsTo_of_exec (exec_busw_ok answer) decode_busw, rfl, rfl, ⟨rfl, fun _ => rfl, fun _ => rfl, rfl⟩, rfl, rfl,
      rfl, rfl⟩
  case busclr =>
    exact ⟨_, stepsTo_of_exec (exec_busclr_ok answer) decode_busclr, rfl, rfl, ⟨rfl, fun _ => rfl, fun _ => rfl, rfl⟩, rfl,
      rfl, rfl, rfl⟩

/-- A failed transaction leaves the precise state of BusFailure and the environment after the transaction (R128). -/
theorem busFailure_of_exec {i : Instr} {bytes : List Byte} {s : State} {b : Bus} {history : List Exchange}
    (result : exec i s = raise .busFailure (setBus b s)) (decoded : decode bytes = .ok (i, []))
    (recorded : b.history = history) :
    ∃ t, StepsTo i bytes s t ∧ RaisedPrecisely .busFailure s t ∧ t.bus.history = history := by
  obtain ⟨t, answers, precise, rfl⟩ := raise_spec .busFailure (setBus b s)
  exact ⟨t, stepsTo_of_exec (result.trans answers) decoded, precise, recorded⟩

/-- Settles O31: with `fail` at the head of its list each of the three instructions is the raise of BusFailure, with the
failed transaction in the history. -/
theorem busFailAnswerRaises : Obligations.BusFailAnswerRaises := by
  unfold Obligations.BusFailAnswerRaises
  intro s
  refine ⟨fun answer => ?busr, fun answer => ?busw, fun answer => ?busclr⟩
  all_goals obtain ⟨rest, answers⟩ := List.head?_eq_some_iff.mp answer
  case busr => exact busFailure_of_exec (exec_busr_fail answers) decode_busr rfl
  case busw => exact busFailure_of_exec (exec_busw_fail answers) decode_busw rfl
  case busclr => exact busFailure_of_exec (exec_busclr_fail answers) decode_busclr rfl

/-! ### Waiting (R125) -/

/-- A one-byte opcode at PC is fetched as the instruction that it decodes to. -/
theorem fetchInstr_of_opcodeAt {s : State} {op : Byte} {i : Instr} (here : opcodeAt s = op)
    (decoded : decode [op] = .ok (i, [])) : fetchInstr s = i :=
  fetchInstr_of_decode (bytes := [op]) ⟨here, trivial⟩ decoded

theorem unanswered_of_waitsForBus {s : State} (h : WaitsForBus s) : Unanswered (fetchInstr s) s := by
  obtain ⟨op, empty⟩ | ⟨op, empty⟩ | ⟨op, empty⟩ := h
  · exact .inl ⟨fetchInstr_of_opcodeAt op decode_busr, empty⟩
  · exact .inr (.inl ⟨fetchInstr_of_opcodeAt op decode_busw, empty⟩)
  · exact .inr (.inr ⟨fetchInstr_of_opcodeAt op decode_busclr, empty⟩)

/-- A state that steps to itself is left by no run. -/
theorem runFor_of_step_self {s : State} (still : step s = .next s) (k : Nat) : runFor k s = .next s := by
  induction k with
  | zero => rfl
  | succ k ih => rw [runFor_succ still, ih]

/-- Settles O32: the instruction at PC is an unanswered bus instruction, which answers the state it starts from. -/
theorem unansweredBusInstructionWaits : Obligations.UnansweredBusInstructionWaits := by
  unfold Obligations.UnansweredBusInstructionWaits
  intro k s running waits
  have still : step s = .next s := by rw [step_running running, exec_of_unanswered (unanswered_of_waitsForBus waits)]
  exact runFor_of_step_self still k

end Sys2Proof.Proofs
end

section
/-! Proofs about what a step may change, and about its errors (`10_state.md` section 11, `60_exceptions.md`). -/

namespace Sys2Proof.Proofs

open Sys2Proof.Machine

/-! ### What each instruction may change -/

/-- The instructions that write ACC (R20). -/
def writesAcc : Instr → Bool
  | .mov _ | .add _ | .sub _ | .mul _ | .div _ | .and _ | .or _ => true
  | .inc | .dec | .shl | .shr | .neg | .not | .busr => true
  | _ => false

/-- The register that an instruction writes (R21). -/
def writtenReg : Instr → Option RegIdx
  | .ldi n _ | .ld n _ | .sav n => some n
  | _ => none

/-- The bus instructions (R124). -/
def transacts : Instr → Bool
  | .busr | .busw | .busclr => true
  | _ => false

/-- The one cause of each error (R140 to R144), as the instruction that meets it. -/
def HasCause (i : Instr) (s : State) : ExecError → Prop
  | .invalidOpcode => ∃ op, encode i = [op] ∧ i ∈ undefinedRows op
  | .reservedOpcode => ∃ low, i = .reserved low
  | .stackOverflow => (∃ target, i = .call target) ∧ stackFull s = true
  | .stackUnderflow => i = .ret ∧ s.sp = 0
  | .busFailure => (i = .busr ∧ s.bus.readAnswers.head? = some .fail) ∨
      (i = .busw ∧ s.bus.writeAnswers.head? = some .fail) ∨ (i = .busclr ∧ s.bus.resetAnswers.head? = some .fail)
  | .divideByZero => ∃ n, i = .div n ∧ readReg s n = 0

/-- `b` is the bus environment of `s`, or the one after a transaction of `i`. -/
def BusAfter (i : Instr) (s : State) (b : Bus) : Prop :=
  b = s.bus ∨ (transacts i = true ∧ ∃ x, b.history = x :: s.bus.history)

/-- Every difference between `s` and `t` is one that the instruction `i` may make. It says which instruction makes it,
where `exec_next_cases` only says which differences there can be. -/
structure MayChange (i : Instr) (s t : State) : Prop where
  acc : t.acc = s.acc ∨ writesAcc i = true
  regs : ∀ n, readReg t n = readReg s n ∨ writtenReg i = some n
  sp : t.sp = s.sp ∨ ((∃ target, i = .call target) ∧ t.sp = s.sp + 2) ∨ (i = .ret ∧ t.sp = s.sp - 2)
  mem : ∀ a, readMem t a = readMem s a ∨ (∃ n, i = .st n a) ∨
    ((∃ target, i = .call target) ∧ (a = stackAddr s.sp ∨ a = stackAddr (s.sp + 1)))
  status : t.status = s.status ∨ (i = .halt ∧ t.status = .halted)
  bus : BusAfter i s t.bus
  fault : t.fault = s.fault ∨ ∃ e, t.fault = some e ∧ HasCause i s e

section
variable {i : Instr} {s t : State} {b : Bus}

theorem mayChange_refl (i : Instr) (s : State) : MayChange i s s :=
  ⟨.inl rfl, fun _ => .inl rfl, .inl rfl, fun _ => .inl rfl, .inl rfl, .inl rfl, .inl rfl⟩

theorem mayChange_completeAcc {v : Byte} (writes : writesAcc i = true) (bus : BusAfter i s b)
    (h : completeAcc v (setBus b s) = .next t) : MayChange i s t := by
  cases h
  exact ⟨.inr writes, fun _ => .inl rfl, .inl rfl, fun _ => .inl rfl, .inl rfl, bus, .inl rfl⟩

theorem mayChange_completeReg {n : RegIdx} {v : Byte} {len : Addr} (writes : writtenReg i = some n)
    (h : completeReg n v len s = .next t) : MayChange i s t := by
  cases h
  refine ⟨.inl rfl, fun m => ?_, .inl rfl, fun _ => .inl rfl, .inl rfl, .inl rfl, .inl rfl⟩
  by_cases written : m = n
  · exact .inr (written ▸ writes)
  · exact .inl (readReg_writeReg_other written (advance len s) v)

theorem mayChange_complete_setPc {target : Addr} (bus : BusAfter i s b)
    (h : complete (setPc target (setBus b s)) = .next t) : MayChange i s t := by
  cases h
  exact ⟨.inl rfl, fun _ => .inl rfl, .inl rfl, fun _ => .inl rfl, .inl rfl, bus, .inl rfl⟩

theorem mayChange_raise (e : ExecError) (cause : HasCause i s e) (bus : BusAfter i s b)
    (h : raise e (setBus b s) = .next t) : MayChange i s t := by
  cases h
  exact ⟨.inl rfl, fun _ => .inl rfl, .inl rfl, fun _ => .inl rfl, .inl rfl, bus, .inr ⟨e, rfl, cause⟩⟩

end

theorem mayChange_st {n : RegIdx} {addr : Addr} {s t : State} (h : execSt n addr s = .next t) :
    MayChange (.st n addr) s t := by
  cases h
  refine ⟨.inl rfl, fun _ => .inl rfl, .inl rfl, fun a => ?_, .inl rfl, .inl rfl, .inl rfl⟩
  by_cases here : a = addr
  · exact .inr (.inl ⟨n, here ▸ rfl⟩)
  · exact .inl (readMem_writeMem_other here (advance 3 s) (readReg s n))

theorem mayChange_call {target : Addr} {s t : State} (h : execCall target s = .next t) :
    MayChange (.call target) s t := by
  by_cases full : stackFull s = true
  · exact mayChange_raise .stackOverflow (b := s.bus) ⟨⟨_, rfl⟩, full⟩ (.inl rfl) ((execCall_of_full full target).symm.trans h)
  · obtain ⟨_, answers, -, sp, mem, -, ⟨status, fault, bus, -⟩, acc, regs⟩ := execCall_spec full target
    cases answers.symm.trans h
    refine ⟨.inl acc, fun n => .inl (regs n), .inr (.inl ⟨⟨_, rfl⟩, sp⟩), fun a => ?_, .inl status, .inl bus, .inl fault⟩
    by_cases hi : a = stackAddr s.sp
    · exact .inr (.inr ⟨⟨_, rfl⟩, .inl hi⟩)
    · by_cases lo : a = stackAddr (s.sp + 1)
      · exact .inr (.inr ⟨⟨_, rfl⟩, .inr lo⟩)
      · exact .inl ((mem a).trans (byteAfterPush_other hi lo _))

theorem mayChange_ret {s t : State} (h : execRet s = .next t) : MayChange .ret s t := by
  by_cases empty : s.sp = 0
  · exact mayChange_raise .stackUnderflow (b := s.bus) ⟨rfl, empty⟩ (.inl rfl) ((execRet_of_empty empty).symm.trans h)
  · obtain ⟨_, answers, -, sp, -, ⟨status, fault, bus, -⟩, acc, regs, mem⟩ := execRet_spec empty
    cases answers.symm.trans h
    exact ⟨.inl acc, fun n => .inl (regs n), .inr (.inr ⟨rfl, sp⟩), fun a => .inl (mem a), .inl status, .inl bus,
      .inl fault⟩

theorem mayChange_busr {s t : State} (h : exec .busr s = .next t) : MayChange .busr s t := by
  match answers : s.bus.readAnswers with
  | [] =>
    cases (exec_of_unanswered (.inl ⟨rfl, answers⟩)).symm.trans h
    exact mayChange_refl ..
  | .ok v :: _ => exact mayChange_completeAcc rfl (.inr ⟨rfl, _, rfl⟩) ((exec_busr_ok answers).symm.trans h)
  | .fail :: _ =>
    exact mayChange_raise .busFailure (.inl ⟨rfl, by rw [answers]; rfl⟩) (.inr ⟨rfl, _, rfl⟩)
      ((exec_busr_fail answers).symm.trans h)

theorem mayChange_busw {s t : State} (h : exec .busw s = .next t) : MayChange .busw s t := by
  match answers : s.bus.writeAnswers with
  | [] =>
    cases (exec_of_unanswered (.inr (.inl ⟨rfl, answers⟩))).symm.trans h
    exact mayChange_refl ..
  | .ok :: _ => exact mayChange_complete_setPc (.inr ⟨rfl, _, rfl⟩) ((exec_busw_ok answers).symm.trans h)
  | .fail :: _ =>
    exact mayChange_raise .busFailure (.inr (.inl ⟨rfl, by rw [answers]; rfl⟩)) (.inr ⟨rfl, _, rfl⟩)
      ((exec_busw_fail answers).symm.trans h)

theorem mayChange_busclr {s t : State} (h : exec .busclr s = .next t) : MayChange .busclr s t := by
  match answers : s.bus.resetAnswers with
  | [] =>
    cases (exec_of_unanswered (.inr (.inr ⟨rfl, answers⟩))).symm.trans h
    exact mayChange_refl ..
  | .ok :: _ => exact mayChange_complete_setPc (.inr ⟨rfl, _, rfl⟩) ((exec_busclr_ok answers).symm.trans h)
  | .fail :: _ =>
    exact mayChange_raise .busFailure (.inr (.inr ⟨rfl, by rw [answers]; rfl⟩)) (.inr ⟨rfl, _, rfl⟩)
      ((exec_busclr_fail answers).symm.trans h)

theorem exec_mayChange {i : Instr} {s t : State} (h : exec i s = .next t) : MayChange i s t := by
  cases i with
  | ldi | ld | sav => exact mayChange_completeReg rfl h
  | st n addr => exact mayChange_st h
  | mov | add | sub | mul | and | or | inc | dec | shl | shr | neg | not =>
    exact mayChange_completeAcc (b := s.bus) rfl (.inl rfl) h
  | div n =>
    by_cases zero : readReg s n = 0
    · exact mayChange_raise .divideByZero (b := s.bus) ⟨n, rfl, zero⟩ (.inl rfl) ((execDiv_of_eq_zero zero).symm.trans h)
    · exact mayChange_completeAcc (b := s.bus) rfl (.inl rfl) ((execDiv_of_ne_zero zero).symm.trans h)
  | skz | skp | skn | jmp | nop => exact mayChange_complete_setPc (b := s.bus) (.inl rfl) h
  | call target => exact mayChange_call h
  | ret => exact mayChange_ret h
  | busr => exact mayChange_busr h
  | busw => exact mayChange_busw h
  | busclr => exact mayChange_busclr h
  | halt =>
    cases h
    exact ⟨.inl rfl, fun _ => .inl rfl, .inl rfl, fun _ => .inl rfl, .inr ⟨rfl, rfl⟩, .inl rfl, .inl rfl⟩
  | reserved low => exact mayChange_raise .reservedOpcode (b := s.bus) ⟨low, rfl⟩ (.inl rfl) h
  | undefD3 =>
    exact mayChange_raise .invalidOpcode (b := s.bus) ⟨0xD3, rfl, by simp [undefinedRows]⟩ (.inl rfl) h
  | undefB6 op | undefB8 op | undefC6 op | undefC8 op | undefD4 op | undefD8 op | undefE2 op | undefE4 op | undefE8 op =>
    exact mayChange_raise .invalidOpcode (b := s.bus) ⟨op, rfl, by simp [undefinedRows]⟩ (.inl rfl) h

/-- What a step may change is what the fetched instruction may change; an engine that does not run changes nothing. -/
theorem step_mayChange {s t : State} (h : step s = .next t) : MayChange (fetchInstr s) s t := by
  by_cases running : Running s
  · exact exec_mayChange ((step_running running).symm.trans h)
  · cases (step_stopped running).symm.trans h
    exact mayChange_refl ..

/-! ### The opcodes of these instructions (R64, R65) -/

theorem opcode_of_writesAcc {op b1 b2 : Byte} (h : writesAcc (decodeOpcode op b1 b2) = true) :
    (0x30 ≤ op.toNat ∧ op.toNat ≤ 0x3F) ∨ (0x50 ≤ op.toNat ∧ op.toNat ≤ 0xB5) ∨ op = 0xD0 := by
  have rows : ∀ op, writesAcc (decodeOpcode op 0 0) = true →
      (0x30 ≤ op.toNat ∧ op.toNat ≤ 0x3F) ∨ (0x50 ≤ op.toNat ∧ op.toNat ≤ 0xB5) ∨ op = 0xD0 := by decide
  obtain oneByte | ⟨n, rfl⟩ | ⟨n, rfl⟩ | ⟨n, rfl⟩ | rfl | rfl := opcode_oneByte_or_operandForm op
  case inl => exact rows op (decodeOpcode_one oneByte b1 b2 0 0 ▸ h)
  all_goals simp [writesAcc] at h

theorem opcode_of_transacts {op b1 b2 : Byte} (h : transacts (decodeOpcode op b1 b2) = true) :
    0xD0 ≤ op.toNat ∧ op.toNat ≤ 0xD2 := by
  have rows : ∀ op, transacts (decodeOpcode op 0 0) = true → 0xD0 ≤ op.toNat ∧ op.toNat ≤ 0xD2 := by decide
  obtain oneByte | ⟨n, rfl⟩ | ⟨n, rfl⟩ | ⟨n, rfl⟩ | rfl | rfl := opcode_oneByte_or_operandForm op
  case inl => exact rows op (decodeOpcode_one oneByte b1 b2 0 0 ▸ h)
  all_goals simp [transacts] at h

/-- Only the undefined opcodes decode to an undefined row; `decodeOpcode_mem_undefinedRows` is the converse. -/
theorem isUndefinedOpcode_of_mem_undefinedRows {op b1 b2 : Byte} (h : decodeOpcode op b1 b2 ∈ undefinedRows op) :
    IsUndefinedOpcode op := by
  have rows : ∀ op, decodeOpcode op 0 0 ∈ undefinedRows op → IsUndefinedOpcode op := by
    unfold IsUndefinedOpcode
    decide
  obtain oneByte | ⟨n, rfl⟩ | ⟨n, rfl⟩ | ⟨n, rfl⟩ | rfl | rfl := opcode_oneByte_or_operandForm op
  case inl => exact rows op (decodeOpcode_one oneByte b1 b2 0 0 ▸ h)
  all_goals simp [undefinedRows] at h

theorem opcodeAt_of_writtenReg {s : State} {n : RegIdx} (h : writtenReg (fetchInstr s) = some n) :
    opcodeAt s = opcodeByte 0x0 n ∨ opcodeAt s = opcodeByte 0x1 n ∨ opcodeAt s = opcodeByte 0x4 n := by
  cases fetched : fetchInstr s with
  | ldi m imm =>
    cases fetched ▸ h
    exact .inl (opcodeAt_of_fetchInstr fetched rfl)
  | ld m addr =>
    cases fetched ▸ h
    exact .inr (.inl (opcodeAt_of_fetchInstr fetched rfl))
  | sav m =>
    cases fetched ▸ h
    exact .inr (.inr (opcodeAt_of_fetchInstr fetched rfl))
  | _ => simp [fetched, writtenReg] at h

/-- The address of a ST is the pair of bytes after its opcode (R70). -/
theorem addr_of_fetchInstr_st {s : State} {n : RegIdx} {a : Addr} (fetched : fetchInstr s = .st n a) :
    a = readMem s (s.pc + 1) ++ readMem s (s.pc + 2) := by
  have hold := holdsAt_encode_fetchInstr s
  rw [fetched] at hold
  obtain ⟨-, hi, lo, -⟩ := hold
  rw [addr_add_one_add_one] at lo
  rw [readMem, readMem, hi, lo]
  exact (joinBytes_hiByte_loByte a).symm

/-! ### The obligations about changes -/

/-- Settles O39: `step_mayChange` names the instruction that makes each of the three changes, and the decoder its
opcode. -/
theorem onlyTheirInstructionsWriteRegisters : Obligations.OnlyTheirInstructionsWriteRegisters := by
  unfold Obligations.OnlyTheirInstructionsWriteRegisters
  intro s t h
  have changes := step_mayChange h
  refine ⟨fun changed => ?acc, fun n changed => ?reg, fun changed => ?sp⟩
  case acc => exact opcode_of_writesAcc (changes.acc.resolve_left changed)
  case reg => exact opcodeAt_of_writtenReg ((changes.regs n).resolve_left changed)
  case sp =>
    obtain ⟨⟨target, call⟩, sp⟩ | ⟨ret, sp⟩ := changes.sp.resolve_left changed
    · exact .inl ⟨opcodeAt_of_fetchInstr call rfl, sp⟩
    · exact .inr ⟨opcodeAt_of_fetchInstr ret rfl, sp⟩

/-- Settles O40: a changed byte is at the address of a ST, which stands after its opcode, or where a CALL pushes. -/
theorem onlyStAndCallWriteMemory : Obligations.OnlyStAndCallWriteMemory := by
  unfold Obligations.OnlyStAndCallWriteMemory
  intro s t a h changed
  obtain ⟨n, st⟩ | ⟨⟨target, call⟩, pushed⟩ := ((step_mayChange h).mem a).resolve_left changed
  case inl =>
    have family : ∀ n : RegIdx, 0x20 ≤ (opcodeByte 0x2 n).toNat ∧ (opcodeByte 0x2 n).toNat ≤ 0x2F := by decide
    rw [opcodeAt_of_fetchInstr st rfl]
    exact .inl ⟨(family n).1, (family n).2, addr_of_fetchInstr_st st⟩
  case inr => exact .inr ⟨opcodeAt_of_fetchInstr call rfl, pushed⟩

/-- Settles O41: an engine that does not run keeps its state, and a running one changes STATUS only by HALT. -/
theorem statusChangesOnlyByHalt : Obligations.StatusChangesOnlyByHalt := by
  unfold Obligations.StatusChangesOnlyByHalt
  intro s t h
  have still : ¬ Running s → t = s := fun stopped => by
    cases (step_stopped stopped).symm.trans h
    rfl
  refine ⟨fun changed => ?_, fun recorded => ?_⟩
  · obtain ⟨halt, halted⟩ := (step_mayChange h).status.resolve_left changed
    exact ⟨by_contra fun stopped => changed (still stopped ▸ rfl), opcodeAt_of_fetchInstr halt rfl, halted⟩
  · rw [still fun ⟨_, safe⟩ => recorded safe]

/-- Settles O42: a change of the bus environment is one transaction of a bus instruction. -/
theorem onlyBusInstructionsTransact : Obligations.OnlyBusInstructionsTransact := by
  unfold Obligations.OnlyBusInstructionsTransact
  intro s t h changed
  obtain ⟨bus, once⟩ := (step_mayChange h).bus.resolve_left changed
  exact ⟨opcode_of_transacts bus, once⟩

/-! ### The obligations about errors -/

/-- Settles O36: a step that records an error meets its cause (`step_mayChange`), and the instruction that meets it
stands at PC with its own opcode. -/
theorem eachErrorHasItsCause : Obligations.EachErrorHasItsCause := by
  unfold Obligations.EachErrorHasItsCause
  intro s t e ⟨_, safe⟩ h recorded
  have cause : HasCause (fetchInstr s) s e := by
    obtain same | ⟨e', recorded', cause⟩ := (step_mayChange h).fault
    · exact nomatch recorded.symm.trans (same.trans safe)
    · cases recorded.symm.trans recorded'
      exact cause
  cases e with
  | invalidOpcode =>
    obtain ⟨op, encoded, row⟩ := cause
    cases opcodeAt_of_fetchInstr rfl encoded
    exact isUndefinedOpcode_of_mem_undefinedRows row
  | reservedOpcode =>
    obtain ⟨low, reserved⟩ := cause
    have family : ∀ low : RegIdx, 0xF0 ≤ (opcodeByte 0xF low).toNat := by decide
    exact opcodeAt_of_fetchInstr reserved rfl ▸ family low
  | stackOverflow =>
    obtain ⟨⟨target, call⟩, full⟩ := cause
    exact ⟨opcodeAt_of_fetchInstr call rfl, (stackFull_iff s).mp full⟩
  | stackUnderflow =>
    obtain ⟨ret, empty⟩ := cause
    exact ⟨opcodeAt_of_fetchInstr ret rfl, empty⟩
  | busFailure =>
    obtain ⟨bus, fail⟩ | ⟨bus, fail⟩ | ⟨bus, fail⟩ := cause
    · exact .inl ⟨opcodeAt_of_fetchInstr bus rfl, fail⟩
    · exact .inr (.inl ⟨opcodeAt_of_fetchInstr bus rfl, fail⟩)
    · exact .inr (.inr ⟨opcodeAt_of_fetchInstr bus rfl, fail⟩)
  | divideByZero =>
    obtain ⟨n, div, zero⟩ := cause
    exact ⟨n, opcodeAt_of_fetchInstr div rfl, zero⟩

/-- Settles O37: of the three ends of an instruction (`exec_next_cases`) only the raise records an error, and it leaves
the precise state. -/
theorem errorLeavesThePreciseState : Obligations.ErrorLeavesThePreciseState := by
  unfold Obligations.ErrorLeavesThePreciseState
  intro s t e running h recorded
  rw [step_running running] at h
  obtain ⟨u, changes, rfl⟩ | ⟨e', b, -, rfl⟩ | rfl := exec_next_cases h
  · exact nomatch recorded.symm.trans (changes.fault.trans running.2)
  · exact ⟨recorded, rfl, rfl, rfl, ⟨rfl, fun _ => rfl, fun _ => rfl, rfl⟩, rfl⟩
  · exact nomatch recorded.symm.trans running.2

/-- Settles O52: by O37 PC is one past the opcode, and the host takes the 1 away again. -/
theorem faultingAddressIsThatOfTheInstruction : Obligations.FaultingAddressIsThatOfTheInstruction := by
  unfold Obligations.FaultingAddressIsThatOfTheInstruction
  intro s t e running h recorded
  obtain ⟨fault, pc, -⟩ := errorLeavesThePreciseState s t e running h recorded
  rw [faultingAddress, fault, pc, BitVec.add_sub_cancel]
  rfl

/-! ### The bus environment and the other instructions -/

/-- An instruction that makes no transaction answers alike in every bus environment, which it keeps (R38). -/
theorem exec_setBus {i : Instr} (silent : ¬ transacts i = true) {s t : State} (h : exec i s = .next t) (b : Bus) :
    exec i (setBus b s) = .next (setBus b t) := by
  cases i with
  | div n =>
    by_cases zero : readReg s n = 0
    · cases (execDiv_of_eq_zero zero).symm.trans h
      exact execDiv_of_eq_zero (s := setBus b s) zero
    · cases (execDiv_of_ne_zero zero).symm.trans h
      exact execDiv_of_ne_zero (s := setBus b s) zero
  | call target =>
    by_cases full : stackFull s = true
    · cases (execCall_of_full full target).symm.trans h
      exact execCall_of_full (s := setBus b s) full target
    · cases (execCall_of_not_full full target).symm.trans h
      exact execCall_of_not_full (s := setBus b s) full target
  | ret =>
    by_cases empty : s.sp = 0
    · cases (execRet_of_empty empty).symm.trans h
      exact execRet_of_empty (s := setBus b s) empty
    · cases (execRet_of_pushed empty).symm.trans h
      exact execRet_of_pushed (s := setBus b s) empty
  | busr | busw | busclr => exact absurd rfl silent
  | _ =>
    cases h
    rfl

/-- Settles O43: the fetch does not look at the bus environment, and the fetched instruction makes no transaction. -/
theorem busEnvironmentReachesOnlyBusInstructions : Obligations.BusEnvironmentReachesOnlyBusInstructions := by
  unfold Obligations.BusEnvironmentReachesOnlyBusInstructions
  intro s t b silent h
  by_cases running : Running s
  · have same_fetch : step (setBus b s) = exec (fetchInstr s) (setBus b s) := step_running (s := setBus b s) running
    rw [same_fetch]
    exact exec_setBus (fun bus => silent (opcode_of_transacts bus)) ((step_running running).symm.trans h) b
  · cases (step_stopped running).symm.trans h
    exact step_stopped (s := setBus b s) running

end Sys2Proof.Proofs
end

section
/-! Proofs about Reset, the invariant and runs (`70_reset_and_hazards.md`, `40_engine.md` section 3). -/

namespace Sys2Proof.Proofs

open Sys2Proof.Machine

/-! ### The invariant -/

/-- SP stays even when it goes up by 2, down by 2 or not at all; the wrap at 256 keeps the parity (R29). -/
theorem sp_even_of_completesFrom {s u : State} (changes : CompletesFrom s u) (even : s.sp.toNat % 2 = 0) :
    u.sp.toNat % 2 = 0 := by
  obtain sp | sp | sp := changes.sp
  · rwa [sp]
  · rw [sp]
    bv_omega
  · rw [sp]
    bv_omega

theorem mem_wf_of_completesFrom {s u : State} (changes : CompletesFrom s u) (wf : s.mem.wf) : u.mem.wf := by
  obtain mem | ⟨a, b, mem⟩ | mem := changes.mem
  · rwa [mem]
  · rw [mem]
    exact Memory.write_wf a b wf
  · rw [mem]
    exact pushPc_wf wf

/-- Settles O44: an engine that does not run keeps its state. A running one has no error recorded, and its instruction
ends in one of the three ways of `exec_next_cases`: a completion recomputes FLAG and moves SP by 2 at most, a raise
touches FAULT and PC alone, and waiting changes nothing. -/
theorem everyStepKeepsTheInvariant : Obligations.EveryStepKeepsTheInvariant := by
  unfold Obligations.EveryStepKeepsTheInvariant
  intro s t inv h
  by_cases running : Running s
  case neg =>
    cases (step_stopped running).symm.trans h
    exact inv
  case pos =>
    obtain ⟨status, safe⟩ := running
    rw [step_running ⟨status, safe⟩] at h
    obtain ⟨u, changes, rfl⟩ | ⟨e, b, full, rfl⟩ | rfl := exec_next_cases h
    case inl =>
      have unrecorded : u.fault = none := changes.fault.trans safe
      have even : u.sp.toNat % 2 = 0 := sp_even_of_completesFrom changes inv.sp_even
      have wf : u.mem.wf := mem_wf_of_completesFrom changes inv.memory_wf
      refine ⟨wf, rfl, even, ?_,
        fun recorded => absurd unrecorded recorded, fun _ recorded => nomatch unrecorded.symm.trans recorded⟩
      obtain same | halted := changes.status
      · exact same ▸ inv.not_suspended
      · exact halted ▸ nofun
    case inr.inl =>
      refine ⟨inv.memory_wf, inv.flag_agrees, inv.sp_even, inv.not_suspended, fun _ => status, fun wrap overflow => ?_⟩
      obtain last | ⟨-, fault⟩ := (stackFull_iff s).mp (full (Option.some.inj overflow))
      · have even := inv.sp_even
        rw [last] at even
        exact absurd even (by decide)
      · exact nomatch wrap.symm.trans fault
    case inr.inr => exact inv

/-! ### Reset -/

/-- What Reset leaves of an image that it accepts. -/
theorem hostReset_loaded_iff {image : List Byte} {s t : State} :
    hostReset image s = .loaded t ↔ image.length ≤ 63487 ∧ t = { State.reset with
      mem := Memory.writeBytes [] Config.baseOffset image, bus := s.bus, stackFullPolicy := s.stackFullPolicy } := by
  by_cases long : image.length > Config.maxImageLength
  · have refused : ¬ image.length ≤ 63487 := Nat.not_le.mpr long
    simp [hostReset, long, refused]
  · have fits : image.length ≤ 63487 := Nat.not_lt.mp long
    simp [hostReset, long, fits, eq_comm]

theorem inv_of_hostReset {image : List Byte} {s t : State} (h : hostReset image s = .loaded t) : Inv t := by
  obtain ⟨-, rfl⟩ := hostReset_loaded_iff.mp h
  exact ⟨Memory.writeBytes_wf _ image Memory.reset_wf, rfl, rfl, nofun, nofun, nofun⟩

/-- Settles O45: Reset writes the image into empty memory and sets the rest to values that meet the invariant;
`State.reset` is what it leaves of the empty image. -/
theorem resetEstablishesTheInvariant : Obligations.ResetEstablishesTheInvariant := by
  unfold Obligations.ResetEstablishesTheInvariant
  have empty : hostReset [] State.reset = .loaded State.reset := rfl
  exact ⟨fun _ _ _ => inv_of_hostReset, inv_of_hostReset empty, empty⟩

/-- Settles O46: an accepted image is shorter than memory, so that each address is at one distance from 0x0800, which
is a place in the image or past its end (`read_writeBytes`). -/
theorem resetLoadsTheImage : Obligations.ResetLoadsTheImage := by
  unfold Obligations.ResetLoadsTheImage
  intro image s
  refine ⟨fun long => if_pos long, fun short => ?_⟩
  have reads := read_writeBytes (short.trans (by decide)) [] Config.baseOffset
  refine ⟨_, hostReset_loaded_iff.mpr ⟨short, rfl⟩, rfl, rfl, rfl, readReg_reset, rfl, rfl, rfl, fun k inside => ?image,
    fun a outside => ?zero, rfl, rfl⟩
  case image =>
    have distance : (BitVec.ofNat 16 (0x0800 + k) - Config.baseOffset).toNat = k := by
      unfold Config.baseOffset
      bv_omega
    rw [readMem, reads, distance, List.getElem?_eq_getElem inside]
    rfl
  case zero =>
    have distance : image.length ≤ (a - Config.baseOffset).toNat := by
      unfold Config.baseOffset
      bv_omega
    rw [readMem, reads, List.getElem?_eq_none distance]
    rfl

/-! ### Runs -/

/-- Settles O49: Reset meets the invariant and every step keeps it, so the run's state has it: STATUS is RUNNING or
HALTED, and not HALTED with an error. -/
theorem runIsHaltedFaultedOrRunning : Obligations.RunIsHaltedFaultedOrRunning := by
  unfold Obligations.RunIsHaltedFaultedOrRunning
  intro k image s t u reset run
  have inv : Inv u := runFor_induction everyStepKeepsTheInvariant k t u (inv_of_hostReset reset) run
  by_cases safe : u.fault = none
  · cases status : u.status with
    | running => exact .inr (.inr ⟨status, safe⟩)
    | suspended => exact absurd status inv.not_suspended
    | halted => exact .inl ⟨status, safe⟩
  · exact .inr (.inl ⟨inv.fault_running safe, safe⟩)

/-- A run goes on from any of its states. -/
theorem runFor_add {j : Nat} {s u : State} (h : runFor j s = .next u) (k : Nat) : runFor (j + k) s = runFor k u := by
  induction j generalizing s with
  | zero =>
    cases h
    rw [Nat.zero_add]
  | succ j ih =>
    obtain ⟨t, steps⟩ := step_answers_next s
    rw [runFor_succ steps] at h
    rw [Nat.add_right_comm, runFor_succ steps, ih h]

/-- Settles O50: a state of the run that records an error is not left any more, so that the run would end in it. -/
theorem runWithoutRecordedErrorWasSafe : Obligations.RunWithoutRecordedErrorWasSafe := by
  unfold Obligations.RunWithoutRecordedErrorWasSafe
  intro k s t run safe j before u reached
  by_contra recorded
  have stays : runFor (k - j) u = .next u := runFor_stopped (fun running => recorded running.2) _
  have ends : runFor k s = .next u := by rw [← Nat.add_sub_cancel' before, runFor_add reached, stays]
  cases ends.symm.trans run
  exact recorded safe

/-- Settles O48: the ST writes the byte at PC + 3 and moves PC there (O12); the two bytes after it are as before, and
the next fetch reads the three. -/
theorem storeIsSeenByTheNextFetch : Obligations.StoreIsSeenByTheNextFetch := by
  unfold Obligations.StoreIsSeenByTheNextFetch
  intro n hi lo s t running hold next h
  obtain ⟨_, ⟨-, steps⟩, stored, others, ⟨pc, -, status, fault, -⟩, -⟩ := stStoresTheRegister n hi lo s
  cases (steps running hold).symm.trans h
  rw [next] at stored others
  have running' : Running t := ⟨status.trans running.1, fault.trans running.2⟩
  have first : readMem t (t.pc + 1) = readMem s (s.pc + 4) := by
    rw [pc, BitVec.add_assoc]
    exact others _ (by bv_omega)
  have second : readMem t (t.pc + 2) = readMem s (s.pc + 5) := by
    rw [pc, BitVec.add_assoc]
    exact others _ (by bv_omega)
  have opcode : opcodeAt t = readReg s n := by rw [opcodeAt, pc, stored]
  refine ⟨running', opcode, ?_⟩
  rw [step_running running', fetchInstr, first, second]
  exact congrArg (fun op => exec (decodeOpcode op _ _) t) opcode

/-! ### Observe -/

/-- Settles O51: Observe answers exactly when the engine does not run, and the codes are those of R35. -/
theorem observeReadsAStoppedEngine : Obligations.ObserveReadsAStoppedEngine := by
  unfold Obligations.ObserveReadsAStoppedEngine
  intro s
  refine ⟨fun running => ?_, fun ended => ?_⟩
  · simp [observe, stopped, (engineRuns_iff s).mpr running]
  · have answers : stopped s = true := by simpa [stopped, ← engineRuns_iff] using ended
    refine ⟨_, if_pos answers, rfl, rfl, rfl, rfl, rfl, ?flag, ?status, ?fault⟩
    case flag => cases s.flag <;> rfl
    case status => cases s.status <;> rfl
    case fault => rcases s.fault with _ | e <;> [rfl; cases e <;> rfl]

end Sys2Proof.Proofs
end

section
/-! The answer lists of State against the bus environment of the spec (`93_implementation_defined.md` section 2). -/

namespace Sys2Proof.Proofs

open Sys2Proof.Machine

/-! ### The answers that an instruction takes -/

/-- An instruction that ends takes the answers at the head of the lists and leaves the ones after them, whatever these
are: one answer of its own list if it transacts, and none otherwise. -/
theorem exec_takes_answers {i : Instr} {s t : State} (h : exec i s = .next t) (answered : ¬ Unanswered i s) :
    ∃ (read : List ReadAnswer) (write reset : List Ack), ∀ reads writes resets,
      exec i (withAnswers (read ++ reads) (write ++ writes) (reset ++ resets) s) =
        .next (withAnswers reads writes resets t) := by
  by_cases bus : transacts i = true
  case neg =>
    have kept : t.bus = s.bus := (exec_mayChange h).bus.resolve_right fun ⟨transacts, _⟩ => bus transacts
    refine ⟨[], [], [], fun reads writes resets => ?_⟩
    rw [withAnswers, withAnswers, kept]
    exact exec_setBus bus h _
  case pos =>
    cases i with
    | busr =>
      match answers : s.bus.readAnswers with
      | [] => exact absurd (.inl ⟨rfl, answers⟩) answered
      | .ok v :: _ =>
        cases (exec_busr_ok answers).symm.trans h
        exact ⟨[.ok v], [], [], fun _ _ _ => exec_busr_ok rfl⟩
      | .fail :: _ =>
        cases (exec_busr_fail answers).symm.trans h
        exact ⟨[.fail], [], [], fun _ _ _ => exec_busr_fail rfl⟩
    | busw =>
      match answers : s.bus.writeAnswers with
      | [] => exact absurd (.inr (.inl ⟨rfl, answers⟩)) answered
      | .ok :: _ =>
        cases (exec_busw_ok answers).symm.trans h
        exact ⟨[], [.ok], [], fun _ _ _ => exec_busw_ok rfl⟩
      | .fail :: _ =>
        cases (exec_busw_fail answers).symm.trans h
        exact ⟨[], [.fail], [], fun _ _ _ => exec_busw_fail rfl⟩
    | busclr =>
      match answers : s.bus.resetAnswers with
      | [] => exact absurd (.inr (.inr ⟨rfl, answers⟩)) answered
      | .ok :: _ =>
        cases (exec_busclr_ok answers).symm.trans h
        exact ⟨[], [], [.ok], fun _ _ _ => exec_busclr_ok rfl⟩
      | .fail :: _ =>
        cases (exec_busclr_fail answers).symm.trans h
        exact ⟨[], [], [.fail], fun _ _ _ => exec_busclr_fail rfl⟩
    | _ => exact nomatch bus

/-! ### Runs against an environment -/

section
variable {env : BusEnvironment} {s t : State}

theorem runIn_succ (h : step (offer env s) = .next t) (k : Nat) : runIn env (k + 1) s = runIn env k t := by
  rw [runIn, h]

/-- What an environment offers depends on the history and ACC alone, so that it offers the same again. -/
theorem offer_offer (env : BusEnvironment) (s : State) : offer env (offer env s) = offer env s := rfl

/-- Where a step changes nothing, the environment is asked the same before every step, and the run stays. -/
theorem runIn_of_step_self (still : step (offer env s) = .next (offer env s)) (k : Nat) :
    runIn env (k + 1) s = .next (offer env s) := by
  induction k generalizing s with
  | zero => rw [runIn_succ still, runIn]
  | succ k ih => rw [runIn_succ still, ih (offer_offer env s ▸ still), offer_offer]

/-- A step against an environment changes nothing, or it is a step with any lists that begin with the answers which the
environment gives to it. -/
theorem step_offer_cases (h : step (offer env s) = .next t) :
    t = offer env s ∨
    ∃ (read : List ReadAnswer) (write reset : List Ack), ∀ reads writes resets,
      step (withAnswers (read ++ reads) (write ++ writes) (reset ++ resets) s) =
        .next (withAnswers reads writes resets t) := by
  by_cases running : Running s
  case neg =>
    cases (step_stopped (s := offer env s) running).symm.trans h
    exact .inl rfl
  case pos =>
    have runs : ∀ reads writes resets, step (withAnswers reads writes resets s) =
        exec (fetchInstr s) (withAnswers reads writes resets s) :=
      fun reads writes resets => step_running (s := withAnswers reads writes resets s) running
    have ends : exec (fetchInstr s) (offer env s) = .next t := (runs _ _ _).symm.trans h
    by_cases unanswered : Unanswered (fetchInstr s) (offer env s)
    · cases (exec_of_unanswered unanswered).symm.trans ends
      exact .inl rfl
    · obtain ⟨read, write, reset, takes⟩ := exec_takes_answers ends unanswered
      exact .inr ⟨read, write, reset, fun reads writes resets => (runs _ _ _).trans (takes reads writes resets)⟩

end

/-- Settles O53, by induction on the steps: the lists are the answers that the environment gives to each step, one after
another (`step_offer_cases`). Where a step changes nothing the run has come to rest, and what was offered there serves
as the lists. -/
theorem answerListsCoverEveryBusEnvironment : Obligations.AnswerListsCoverEveryBusEnvironment := by
  unfold Obligations.AnswerListsCoverEveryBusEnvironment
  intro env k
  induction k with
  | zero =>
    intro s t run
    cases run
    exact ⟨[], [], [], _, rfl, rfl⟩
  | succ k ih =>
    intro s t run
    obtain ⟨s', steps⟩ := step_answers_next (offer env s)
    obtain rfl | ⟨read, write, reset, takes⟩ := step_offer_cases steps
    · cases (runIn_of_step_self steps k).symm.trans run
      exact ⟨_, _, _, _, runFor_of_step_self steps (k + 1), rfl⟩
    · obtain ⟨reads, writes, resets, u, run', same⟩ := ih s' t ((runIn_succ steps k).symm.trans run)
      exact ⟨_, _, _, u, (runFor_succ (takes reads writes resets) k).trans run', same⟩

end Sys2Proof.Proofs
end
